-- ==== Sys2Proof/Word.lean ====
section
/-! DEFINITION. The widths of this hardware and the values that cross its bus: bytes, 32-bit words, access sizes, write
data and answers (spec/00_scope.md R7, spec/20_memory.md R61). -/

namespace Sys2Proof

/-- A byte is 8 bits (00_scope.md R7). -/
abbrev Byte := BitVec 8

/-- A word is 32 bits (00_scope.md R7), and the bus carries 32 bits (R5). -/
abbrev Word := BitVec 32

/-- The three access sizes of a transaction, 1, 2 and 4 bytes (20_memory.md R61: no other can be expressed). -/
inductive Size where
  | byte
  | half
  | word
deriving DecidableEq, Repr

/-- The size in bytes (20_memory.md R61). -/
def Size.bytes : Size → Nat
  | .byte => 1
  | .half => 2
  | .word => 4

/-- The data of a write: an unsigned integer below `2^(8*size)` together with its size (20_memory.md R61), so that a
value too wide for its size cannot be written down. -/
inductive WData where
  | b (v : BitVec 8)
  | h (v : BitVec 16)
  | w (v : BitVec 32)
deriving DecidableEq, Repr

/-- The size a write's data has. -/
def WData.size : WData → Size
  | .b _ => .byte
  | .h _ => .half
  | .w _ => .word

/-- The write's data as an unsigned integer (20_memory.md R61). -/
def WData.toNat : WData → Nat
  | .b v => v.toNat
  | .h v => v.toNat
  | .w v => v.toNat

/-- The direction of a transaction (20_memory.md R61). -/
inductive Dir where
  | read
  | write
deriving DecidableEq, Repr

/-- The bus response (20_memory.md R61): it reports only an ill-formed access, never an engine error (R64). -/
inductive Resp where
  | okay
  | error
deriving DecidableEq, Repr

/-- What the CORE answers to a transaction: `(resp, rdata)`, where only a read has `rdata` (20_memory.md R61). -/
structure Answer where
  resp  : Resp
  rdata : Option Word
deriving DecidableEq, Repr

end Sys2Proof
end

