-- ==== Sys2Proof/Syntax.lean ====
section
/-! DEFINITION. The operations of the CORE, one constructor per row of spec/opcode_table.json (spec/30_encoding.md R92),
and the alphabet of the HOST's inputs: bus transactions (spec/20_memory.md R61) and the hardware reset (spec/70_reset_and_hazards.md
R230, R232). -/

namespace Sys2Proof

/-- The complete set of operations (30_encoding.md R92). No command carries an operand (R93); a push carries its data (R94);
an illegal command word is an operation of its own, which keeps the word (R95, 43_system_commands.md R191). -/
inductive Instr where
  | macNew
  | kdfStart
  | kdfLabel
  | final
  | clear
  | pushKey (d : WData)
  | pushData (d : WData)
  | rdStatus
  | rdDigest0
  | rdDigest1
  | rdDigest2
  | rdDigest3
  | rdDigest4
  | rdDigest5
  | rdDigest6
  | rdDigest7
  | illegal (w : Word)
deriving DecidableEq, Repr

/-- A bus transaction `(dir, off, size, wdata)` (20_memory.md R61), legal or not: `off` is the byte offset 0 to 63 in the
window; a read has a size, a write has data of one of the three sizes. -/
inductive Transaction where
  | read (off : BitVec 6) (size : Size)
  | write (off : BitVec 6) (data : WData)
deriving DecidableEq, Repr

/-- The direction of a transaction. -/
def Transaction.dir : Transaction → Dir
  | .read _ _ => .read
  | .write _ _ => .write

/-- The byte offset of a transaction in the window. -/
def Transaction.off : Transaction → BitVec 6
  | .read off _ => off
  | .write off _ => off

/-- The size of a transaction. -/
def Transaction.size : Transaction → Size
  | .read _ size => size
  | .write _ d => d.size

/-- What the outside world can do to a CORE: issue a transaction, assert the hardware reset between two transactions
(70_reset_and_hazards.md R230, R232), or assert it while transaction `t` is in progress (R232; 93_implementation_defined.md
U14). -/
inductive HostEvent where
  | access (t : Transaction)
  | reset
  | resetDuring (t : Transaction)
deriving DecidableEq, Repr

end Sys2Proof
end

