-- ==== Sys2Proof/WellFormed.lean ====
section
/-! DEFINITION. Which terms of `Instr` are operations of the spec: the operand of `illegal` must be an illegal command word
(spec/30_encoding.md R95). Every other term is well formed: sizes and widths are carried by the types. -/

namespace Sys2Proof

/-- What is wrong with an ill-formed term. -/
inductive Instr.Defect where
  /-- `illegal w` where `w` is one of the five command words `0x00000001` to `0x00000005`. -/
  | wordIsACommand
deriving DecidableEq, Repr

/-- The five command words (30_encoding.md R92). -/
def isCommandWord (w : Word) : Bool :=
  w == 0x00000001 || w == 0x00000002 || w == 0x00000003 || w == 0x00000004 || w == 0x00000005

/-- The check, with the defect by name. -/
def Instr.check : Instr → Option Instr.Defect
  | .macNew => none
  | .kdfStart => none
  | .kdfLabel => none
  | .final => none
  | .clear => none
  | .pushKey _ => none
  | .pushData _ => none
  | .rdStatus => none
  | .rdDigest0 => none
  | .rdDigest1 => none
  | .rdDigest2 => none
  | .rdDigest3 => none
  | .rdDigest4 => none
  | .rdDigest5 => none
  | .rdDigest6 => none
  | .rdDigest7 => none
  | .illegal w => if isCommandWord w then some .wordIsACommand else none

/-- The check finds nothing wrong. -/
def Instr.wellFormed (i : Instr) : Bool := i.check.isNone

end Sys2Proof
end

