-- ==== Sys2Proof/Decode.lean ====
section
/-! DEFINITION. The decoder, total on every transaction and rejecting by name, and after it the encoder
(spec/20_memory.md R60, R62, R65; spec/30_encoding.md R91, R92, R95). "The instruction is the whole legal transaction" (R91):
there is no instruction memory, so what is decoded is a transaction (DEDUCED, log entry 1). -/

namespace Sys2Proof

/-- The twelve registers of the window (20_memory.md R60). -/
inductive Port where
  | cmd
  | status
  | keyIn
  | dataIn
  | digest (n : Fin 8)
deriving DecidableEq, Repr

/-- The offset of each register (20_memory.md R60). -/
def Port.offset : Port → BitVec 6
  | .cmd => 0x00
  | .status => 0x04
  | .keyIn => 0x08
  | .dataIn => 0x0C
  | .digest n => BitVec.ofNat 6 (0x10 + 4 * n.val)

/-- The register at an offset, if there is one: every register is accessed at exactly its offset (20_memory.md R60, R66). -/
def portAt (off : BitVec 6) : Option Port :=
  match off.toNat with
  | 0x00 => some .cmd
  | 0x04 => some .status
  | 0x08 => some .keyIn
  | 0x0C => some .dataIn
  | 0x10 => some (.digest 0)
  | 0x14 => some (.digest 1)
  | 0x18 => some (.digest 2)
  | 0x1C => some (.digest 3)
  | 0x20 => some (.digest 4)
  | 0x24 => some (.digest 5)
  | 0x28 => some (.digest 6)
  | 0x2C => some (.digest 7)
  | _ => none

/-- The kinds of illegal transaction that 20_memory.md R65 lists. -/
inductive Reject where
  /-- The offset is none of the twelve: a reserved offset, or a misaligned one (R65, R66). -/
  | noRegister
  /-- A read of `CMD`, `KEY_IN` or `DATA_IN`, or a write of `STATUS` or `DIGESTn`. -/
  | wrongDirection
  /-- A 1- or 2-byte access to `CMD`, `STATUS` or `DIGESTn`. -/
  | wrongSize
deriving DecidableEq, Repr

/-- The operation a `CMD` word encodes, by the match and mask of 30_encoding.md R92; every other word is illegal (R95). -/
def decodeCmd (w : Word) : Instr :=
  if w = 0x00000001 then .macNew
  else if w = 0x00000002 then .kdfStart
  else if w = 0x00000003 then .kdfLabel
  else if w = 0x00000004 then .final
  else if w = 0x00000005 then .clear
  else .illegal w

/-- The read of `DIGESTn` (30_encoding.md R92). -/
def readDigest (n : Fin 8) : Instr :=
  match n with
  | 0 => .rdDigest0
  | 1 => .rdDigest1
  | 2 => .rdDigest2
  | 3 => .rdDigest3
  | 4 => .rdDigest4
  | 5 => .rdDigest5
  | 6 => .rdDigest6
  | 7 => .rdDigest7

/-- A write of `d` to a register (30_encoding.md R91, formats `CMD` and `PUSH`). -/
def decodeWrite (p : Port) (d : WData) : Except Reject Instr :=
  match p, d with
  | .cmd, .w v => .ok (decodeCmd v)
  | .cmd, .b _ => .error .wrongSize
  | .cmd, .h _ => .error .wrongSize
  | .keyIn, d => .ok (.pushKey d)
  | .dataIn, d => .ok (.pushData d)
  | .status, _ => .error .wrongDirection
  | .digest _, _ => .error .wrongDirection

/-- A read of a register (30_encoding.md R91, format `READ`). -/
def decodeRead (p : Port) (size : Size) : Except Reject Instr :=
  match p with
  | .cmd => .error .wrongDirection
  | .keyIn => .error .wrongDirection
  | .dataIn => .error .wrongDirection
  | .status => if size = .word then .ok .rdStatus else .error .wrongSize
  | .digest n => if size = .word then .ok (readDigest n) else .error .wrongSize

/-- The operation a transaction is, or the name of why it is illegal (20_memory.md R62, R65). Legality depends on no state
of the CORE (R62), so neither does decoding. -/
def decode (t : Transaction) : Except Reject Instr :=
  match t with
  | .write off d =>
    match portAt off with
    | some p => decodeWrite p d
    | none => .error .noRegister
  | .read off size =>
    match portAt off with
    | some p => decodeRead p size
    | none => .error .noRegister

/-- A write of word `w` to `CMD`: `(WRITE, 0x00, 4, w)` (30_encoding.md R91). -/
def cmdWrite (w : Word) : Transaction := .write Port.cmd.offset (.w w)

/-- The transaction of an operation (30_encoding.md R92). -/
def encode (i : Instr) : Transaction :=
  match i with
  | .macNew => cmdWrite 0x00000001
  | .kdfStart => cmdWrite 0x00000002
  | .kdfLabel => cmdWrite 0x00000003
  | .final => cmdWrite 0x00000004
  | .clear => cmdWrite 0x00000005
  | .pushKey d => .write Port.keyIn.offset d
  | .pushData d => .write Port.dataIn.offset d
  | .rdStatus => .read Port.status.offset .word
  | .rdDigest0 => .read (Port.digest 0).offset .word
  | .rdDigest1 => .read (Port.digest 1).offset .word
  | .rdDigest2 => .read (Port.digest 2).offset .word
  | .rdDigest3 => .read (Port.digest 3).offset .word
  | .rdDigest4 => .read (Port.digest 4).offset .word
  | .rdDigest5 => .read (Port.digest 5).offset .word
  | .rdDigest6 => .read (Port.digest 6).offset .word
  | .rdDigest7 => .read (Port.digest 7).offset .word
  | .illegal w => cmdWrite w

/-- The transaction that a word of spec/opcode_table.json stands for (DESIGN CHOICE, log entry 5). A row of 32 bits gives
the data of a `CMD` write (its `decode_on` is "wdata (32 bits)"). A row of 6 bits, one byte, gives the window offset
(`decode_on` "offset (6 bits)"): the write-only registers are then written with a word of zeros, every other offset is
read as a word. -/
def tableTransaction (nbits w : Nat) : Transaction :=
  if nbits ≤ 8 then
    match portAt (BitVec.ofNat 6 w) with
    | some .cmd => .write (BitVec.ofNat 6 w) (.w 0)
    | some .keyIn => .write (BitVec.ofNat 6 w) (.w 0)
    | some .dataIn => .write (BitVec.ofNat 6 w) (.w 0)
    | some .status => .read (BitVec.ofNat 6 w) .word
    | some (.digest _) => .read (BitVec.ofNat 6 w) .word
    | none => .read (BitVec.ofNat 6 w) .word
  else cmdWrite (BitVec.ofNat 32 w)

/-- What the decoder reads from a word of spec/opcode_table.json (log entry 5). -/
def decodeTableWord (nbits w : Nat) : Option Instr :=
  match decode (tableTransaction nbits w) with
  | .ok i => some i
  | .error _ => none

end Sys2Proof
end

