-- ==== Sys2Proof/Config.lean ====
section
/-! DEFINITION. What is fixed for the machine and not by the spec's rules: the one free value of this model. The
parameters of spec/00_scope.md R5 that have a value there (block 64, digest 32, pads, DOMAIN) stand where they are used;
`BASE` and `N_INSTANCES` are arguments of Machine/Platform.lean; `HASH` is SHA-256 (spec/92_eei_decisions.md D1, log
entry 6). -/

namespace Sys2Proof

/-- FREE VALUE (DESIGN CHOICE, log entry 9). The response the HOST sees to a transaction that a hardware reset cut short:
none at all, or any answer. spec/70_reset_and_hazards.md R232 leaves it to the platform, spec/93_implementation_defined.md
U14 says "any value for that response". The argument is State's counter of such interruptions, so that each is a fresh
value; it has no body, so no proof can see which value it is. -/
opaque Config.interruptedAnswer : Nat → Option Answer

end Sys2Proof
end

