-- ==== Sys2Proof/Machine/Operands.lean ====
section
/-! DEFINITION. Operand assembly: the byte list of a push, and the byte strings of keys and pads (spec/30_encoding.md R94,
spec/00_scope.md R8, spec/20_memory.md R67). -/

namespace Sys2Proof

/-- The byte list of a push, least significant byte first (30_encoding.md R94; 20_memory.md R64, R67 point 1). -/
def WData.toBytes : WData → List Byte
  | .b v => [v]
  | .h v => [v.extractLsb' 0 8, v.extractLsb' 8 8]
  | .w v => [v.extractLsb' 0 8, v.extractLsb' 8 8, v.extractLsb' 16 8, v.extractLsb' 24 8]

namespace Machine

/-- `le32(b0, b1, b2, b3)`: the word whose least significant byte is `b0` (00_scope.md R8). -/
def le32 (b0 b1 b2 b3 : Byte) : Word := b3 ++ b2 ++ b1 ++ b0

/-- `b0 + 256*b1`, the data of a 2-byte push of two bytes (30_encoding.md R98). -/
def le16 (b0 b1 : Byte) : BitVec 16 := b1 ++ b0

/-- `pad64(k) = k || rep(0x00, 64 - len(k))` for `len(k) <= 64` (00_scope.md R8). -/
def pad64 (k : List Byte) : Vector Byte 64 := Vector.ofFn fun i => k.getD i.val 0x00

/-- `kp xor_bytes rep(c, 64)` (00_scope.md R8). -/
def xorPad (c : Byte) (kp : Vector Byte 64) : Vector Byte 64 := kp.map (fun b => b ^^^ c)

/-- `IPAD_BYTE` (00_scope.md R5). -/
def ipadByte : Byte := 0x36

/-- `OPAD_BYTE` (00_scope.md R5). -/
def opadByte : Byte := 0x5c

/-- `DOMAIN`, the 14 bytes of the ASCII text "VMess AEAD KDF": a ROM constant, not addressable and not writable
(00_scope.md R5; 10_state.md R40; 42_kdf_controller.md R170). -/
def domain : List Byte :=
  [0x56, 0x4D, 0x65, 0x73, 0x73, 0x20, 0x41, 0x45, 0x41, 0x44, 0x20, 0x4B, 0x44, 0x46]

end Machine

end Sys2Proof
end

