-- ==== Sys2Proof/Machine/State.lean ====
section
/-! DEFINITION. The state of one CORE (spec/10_state.md R20), the reasons a step could stop, and the reset state
(spec/70_reset_and_hazards.md R231). -/

namespace Sys2Proof.Machine

/-- `PHASE`, the sequencing state and the single-use guard (10_state.md R22). -/
inductive Phase where
  | idle
  | mac
  | kdfPath
  | kdfKey
deriving DecidableEq, Repr

/-- `ERR`, the latched error code: none or one of the four engine errors (10_state.md R24, 60_exceptions.md R201). The
values 5 to 15 never occur (R24; 93_implementation_defined.md U12: "A model may make ERR a five-valued type"). -/
inductive ErrCode where
  | none
  | keyTooLong
  | macInstanceReused
  | illegalCommand
  | sequenceError
deriving DecidableEq, Repr

/-- The registers of one CORE: the table of 10_state.md R20, row by row. Nothing else is state of the CORE. -/
@[ext] structure Regs where
  /-- which kind of MAC instance is live (R22) -/
  phase : Phase
  /-- the latched error code (R24) -/
  err : ErrCode
  /-- `DIGEST` holds a finished tag (R25) -/
  digestValid : Bool
  /-- more than 64 bytes were pushed to `KEY_IN` since the staging buffer was last emptied (R26) -/
  keyovf : Bool
  /-- bytes held in `KEYBUF`, 7 bits (R27) -/
  keylen : BitVec 7
  /-- key staging buffer (R28) -/
  keybuf : Vector Byte 64
  /-- outer pad of the live instance (R29) -/
  opad : Vector Byte 64
  /-- chaining value of the inner hash (R30) -/
  ih : Vector Word 8
  /-- partial block of the inner hash (R30) -/
  ibuf : Vector Byte 64
  /-- bytes absorbed by the inner hash, modulo 2^64 (R30) -/
  ilen : BitVec 64
  /-- the last finished tag (R31) -/
  digest : Vector Byte 32
deriving DecidableEq, Repr

/-- The state: the CORE's registers, and what stands between it and the HOST. `inbox`, `answers` and `interruptions` are
the MODEL's own fields, not registers of the CORE (log entries 2, 4 and 9). -/
structure State where
  /-- the eleven registers of 10_state.md R20 -/
  regs : Regs
  /-- the HOST's inputs not yet accepted, oldest first, in the order the bus delivers them (20_memory.md R71) -/
  inbox : List HostEvent
  /-- the responses given so far, oldest first: what a run shows, beside the final state (70_reset_and_hazards.md R246) -/
  answers : List Answer
  /-- how many transactions a hardware reset has cut short: the argument of the free value `Config.interruptedAnswer` -/
  interruptions : Nat
deriving DecidableEq, Repr

/-- The reasons a step ends in a fault: there are none. Every transaction is answered (70_reset_and_hazards.md R246: "The
CORE cannot hang, deadlock or diverge"), an engine error is a next state (60_exceptions.md R203) and a bus access error is
an answer (60_exceptions.md R208). Nobody raises a fault (DEDUCED, safe, log entry 8). -/
inductive Fault
deriving DecidableEq, Repr

/-- The reasons a step is refused. -/
inductive Refusal where
  /-- Raised by `exec` only, for an instruction this model has given no meaning yet: safe. No arm is in that case. -/
  | notModelled (mnemonic : String)
deriving DecidableEq, Repr

/-- Every register at its reset value (70_reset_and_hazards.md R231). `IH` resets to zero, not to the hash's initial value. -/
def Regs.reset : Regs where
  phase := .idle
  err := .none
  digestValid := false
  keyovf := false
  keylen := 0
  keybuf := Vector.replicate 64 0x00
  opad := Vector.replicate 64 0x00
  ih := Vector.replicate 8 0x00000000
  ibuf := Vector.replicate 64 0x00
  ilen := 0
  digest := Vector.replicate 32 0x00

/-- The machine right after the hardware reset: every register at its reset value (R231), no input pending, no response
given (DESIGN CHOICE for the model's three own fields, log entry 10). -/
def State.reset : State where
  regs := Regs.reset
  inbox := []
  answers := []
  interruptions := 0

end Sys2Proof.Machine
end

