-- ==== Sys2Proof/Machine/Flags.lean ====
section
/-! DEFINITION. The flags and their views: the codes of `PHASE` and `ERR`, the word `STATUS`, the words `DIGESTn`, and the
two output lines (spec/10_state.md R22, R24, R32, R35, R39). -/

namespace Sys2Proof.Machine

/-- The 2-bit value of `PHASE` (10_state.md R22). -/
def Phase.code : Phase → BitVec 2
  | .idle => 0
  | .mac => 1
  | .kdfPath => 2
  | .kdfKey => 3

/-- The 4-bit value of `ERR` (10_state.md R24, 60_exceptions.md R201). -/
def ErrCode.code : ErrCode → BitVec 4
  | .none => 0
  | .keyTooLong => 1
  | .macInstanceReused => 2
  | .illegalCommand => 3
  | .sequenceError => 4

/-- `STATUS`, field by field from bit 31 down: reserved bits 31:15 read as 0, `KEYLEN` 14:8, `ERR` 7:4, `KEYOVF` 3,
`DIGEST_VALID` 2, `PHASE` 1:0 (10_state.md R32). -/
def statusWord (r : Regs) : Word :=
  (0 : BitVec 17) ++ r.keylen ++ r.err.code ++ BitVec.ofBool r.keyovf ++ BitVec.ofBool r.digestValid ++ r.phase.code

/-- `DIGESTn = le32(DIGEST[4n], …, DIGEST[4n+3])`: tag byte `4n` is in bits 7:0 (10_state.md R35). -/
def digestWord (r : Regs) (n : Fin 8) : Word :=
  le32 (r.digest[4 * n.val]'(by omega)) (r.digest[4 * n.val + 1]'(by omega))
    (r.digest[4 * n.val + 2]'(by omega)) (r.digest[4 * n.val + 3]'(by omega))

/-- The output line `done = DIGEST_VALID` (10_state.md R39, 60_exceptions.md R210). -/
def doneLine (r : Regs) : Bool := r.digestValid

/-- The output line `err = (ERR != 0)` (10_state.md R39, 60_exceptions.md R210). -/
def errLine (r : Regs) : Bool := r.err != .none

/-- A MAC instance is live (10_state.md R22). -/
def Regs.live (r : Regs) : Bool := r.phase != .idle

end Sys2Proof.Machine
end

