-- ==== Sys2Proof/Machine/Hash.lean ====
section
/-! DEFINITION. The hash primitive, SHA-256 (spec/40_hash_primitive.md R110 to R119; the choice of SHA-256 is
spec/92_eei_decisions.md D1, log entry 6). -/

namespace Sys2Proof.Machine

/-- A HashState: chaining value, partial block, byte count (40_hash_primitive.md R110). -/
structure HashState where
  h   : Vector Word 8
  buf : Vector Byte 64
  len : BitVec 64
deriving DecidableEq, Repr

/-- The initial chaining value `IV[0..7]` (R118). -/
def iv : Vector Word 8 :=
  #v[0x6a09e667, 0xbb67ae85, 0x3c6ef372, 0xa54ff53a, 0x510e527f, 0x9b05688c, 0x1f83d9ab, 0x5be0cd19]

/-- The words of one row of R119, leftmost first: the row is written below as one number, its eight words joined. -/
def rowWords (row : BitVec 256) : List Word :=
  (List.range 8).map fun i => row.extractLsb' (224 - 32 * i) 32

/-- The rows of R119, one number a row. The values are the first 32 bits of the fractional parts of the cube roots of the
first 64 primes, which `test_round_constants` checks. -/
def constantRows : List (BitVec 256) :=
  [0x428a2f9871374491b5c0fbcfe9b5dba53956c25b59f111f1923f82a4ab1c5ed5,
   0xd807aa9812835b01243185be550c7dc372be5d7480deb1fe9bdc06a7c19bf174,
   0xe49b69c1efbe47860fc19dc6240ca1cc2de92c6f4a7484aa5cb0a9dc76f988da,
   0x983e5152a831c66db00327c8bf597fc7c6e00bf3d5a7914706ca635114292967,
   0x27b70a852e1b21384d2c6dfc53380d13650a7354766a0abb81c2c92e92722c85,
   0xa2bfe8a1a81a664bc24b8b70c76c51a3d192e819d6990624f40e3585106aa070,
   0x19a4c1161e376c082748774c34b0bcb5391c0cb34ed8aa4a5b9cca4f682e6ff3,
   0x748f82ee78a5636f84c878148cc7020890befffaa4506cebbef9a3f7c67178f2]

/-- The 64 round constants `K[0..63]`, `K[0]` first (R119). -/
def roundConstants : List Word := constantRows.flatMap rowWords

/-- `rotr_32(x, n)` (00_scope.md R7). -/
def rotr (x : Word) (n : Nat) : Word := (x >>> n) ||| (x <<< (32 - n))

/-- `Ch` (R117). -/
def ch (x y z : Word) : Word := (x &&& y) ^^^ (~~~x &&& z)

/-- `Maj` (R117). -/
def maj (x y z : Word) : Word := (x &&& y) ^^^ (x &&& z) ^^^ (y &&& z)

/-- `bsig0` (R117). -/
def bsig0 (x : Word) : Word := rotr x 2 ^^^ rotr x 13 ^^^ rotr x 22

/-- `bsig1` (R117). -/
def bsig1 (x : Word) : Word := rotr x 6 ^^^ rotr x 11 ^^^ rotr x 25

/-- `ssig0` (R117). -/
def ssig0 (x : Word) : Word := rotr x 7 ^^^ rotr x 18 ^^^ (x >>> 3)

/-- `ssig1` (R117). -/
def ssig1 (x : Word) : Word := rotr x 17 ^^^ rotr x 19 ^^^ (x >>> 10)

/-- The words of a block, most significant byte first (R115, `W[t]` for `t <= 15`; 20_memory.md R67 point 3). -/
def blockWords : List Byte → List Word
  | b0 :: b1 :: b2 :: b3 :: rest => (b0 ++ b1 ++ b2 ++ b3) :: blockWords rest
  | _ => []

/-- `n` further words of the message schedule in front of the words so far, newest first: from `W[t]` on, position `k`
of the list holds `W[t-1-k]` (R115, `W[t]` for `t >= 16`). -/
def extendSchedule : Nat → List Word → List Word
  | 0, ws => ws
  | n + 1, ws =>
    extendSchedule n ((ssig1 (ws.getD 1 0) + ws.getD 6 0 + ssig0 (ws.getD 14 0) + ws.getD 15 0) :: ws)

/-- The message schedule `W[0..63]` of a 64-byte block (R115). -/
def schedule (block : List Byte) : List Word := (extendSchedule 48 (blockWords block).reverse).reverse

/-- One round on the working variables `(a,b,c,d,e,f,g,h)`, with the pair `(K[t], W[t])` (R116). -/
def shaRound (v : Vector Word 8) (kw : Word × Word) : Vector Word 8 :=
  let t1 := v[7] + bsig1 v[4] + ch v[4] v[5] v[6] + kw.1 + kw.2
  let t2 := bsig0 v[0] + maj v[0] v[1] v[2]
  #v[t1 + t2, v[0], v[1], v[2], v[3] + t1, v[4], v[5], v[6]]

/-- `Compress(Hin, B)` for the 64 bytes `B` of a block (R116). -/
def compress (hin : Vector Word 8) (block : List Byte) : Vector Word 8 :=
  let o := (roundConstants.zip (schedule block)).foldl shaRound hin
  #v[hin[0] + o[0], hin[1] + o[1], hin[2] + o[2], hin[3] + o[3],
     hin[4] + o[4], hin[5] + o[5], hin[6] + o[6], hin[7] + o[7]]

/-- `HashInit()` (R111). -/
def hashInit : HashState where
  h := iv
  buf := Vector.replicate 64 0x00
  len := 0

/-- How many bytes wait in the partial block: `LEN mod 64` (R112, R120). -/
def HashState.fill (s : HashState) : Nat := s.len.toNat % 64

/-- One byte of `Absorb` (R112): it goes to the next place of the buffer, and a full buffer is compressed and emptied.
`LEN` wraps modulo 2^64 (R120). -/
def absorbByte (s : HashState) (b : Byte) : HashState :=
  let buf := s.buf.set (s.len.toNat % 64) b (Nat.mod_lt _ (by decide))
  if s.len.toNat % 64 = 63 then
    { h := compress s.h buf.toList, buf := Vector.replicate 64 0x00, len := s.len + 1 }
  else
    { h := s.h, buf := buf, len := s.len + 1 }

/-- `Absorb(S, bytes)`: the bytes one at a time, in order (R112). -/
def absorb (s : HashState) (bytes : List Byte) : HashState := bytes.foldl absorbByte s

/-- `be64(n)`: 8 bytes, most significant first (00_scope.md R8). -/
def be64 (n : BitVec 64) : List Byte :=
  [n.extractLsb' 56 8, n.extractLsb' 48 8, n.extractLsb' 40 8, n.extractLsb' 32 8,
   n.extractLsb' 24 8, n.extractLsb' 16 8, n.extractLsb' 8 8, n.extractLsb' 0 8]

/-- `be32(H[0]) || … || be32(H[7])`: byte `i` is byte `i mod 4` of word `i div 4`, most significant first (R113). -/
def serialize (h : Vector Word 8) : Vector Byte 32 :=
  Vector.ofFn fun i => (h[i.val / 4]'(by omega)).extractLsb' (24 - 8 * (i.val % 4)) 8

/-- The chaining value after the padding of `Digest32` (R113), on a copy: `0x80`, zeros, and the message length in bits,
modulo 2^64, in 8 bytes. With 56 bytes or more waiting, the length goes to a second block. -/
def padAndCompress (s : HashState) : Vector Word 8 :=
  let blk := s.buf.toList.take s.fill ++ [0x80]
  let bits := be64 (s.len * 8)
  if 56 ≤ s.fill then
    compress (compress s.h (blk ++ List.replicate (64 - (s.fill + 1)) 0x00)) (List.replicate 56 0x00 ++ bits)
  else
    compress s.h (blk ++ List.replicate (56 - (s.fill + 1)) 0x00 ++ bits)

/-- `Digest32(S)` (R113). It does not change `S`: it is a function of it (90_conflicts.md C6). -/
def digest32 (s : HashState) : Vector Byte 32 := serialize (padAndCompress s)

end Sys2Proof.Machine
end

