-- ==== Sys2Proof/Machine/Ops.lean ====
section
/-! DEFINITION. The named operations every meaning is written over: single-register updates, `ClearKey`, `Construct`,
`Finalize`, `ResetState`, taking an engine error and returning from it, the error-state gate, and answering the HOST. -/

namespace Sys2Proof.Machine

/-! ### Updates of one register -/

/-- `PHASE <- p`. -/
def Regs.setPhase (r : Regs) (p : Phase) : Regs := { r with phase := p }

/-- `ERR <- e`. -/
def Regs.setErr (r : Regs) (e : ErrCode) : Regs := { r with err := e }

/-- `KEYBUF <- k`, and `KEYLEN <- n`. -/
def Regs.setKey (r : Regs) (k : Vector Byte 64) (n : BitVec 7) : Regs := { r with keybuf := k, keylen := n }

/-- `KEYOVF <- b`. -/
def Regs.setKeyovf (r : Regs) (b : Bool) : Regs := { r with keyovf := b }

/-- `OPAD <- o`. -/
def Regs.setOpad (r : Regs) (o : Vector Byte 64) : Regs := { r with opad := o }

/-- `DIGEST <- d ; DIGEST_VALID <- v`. -/
def Regs.setDigest (r : Regs) (d : Vector Byte 32) (v : Bool) : Regs := { r with digest := d, digestValid := v }

/-- The inner HashState of the live instance is the register triple `(IH, IBUF, ILEN)` (40_hash_primitive.md R110,
10_state.md R30). -/
def Regs.inner (r : Regs) : HashState where
  h := r.ih
  buf := r.ibuf
  len := r.ilen

/-- `(IH, IBUF, ILEN) <- S`. -/
def Regs.setInner (r : Regs) (s : HashState) : Regs := { r with ih := s.h, ibuf := s.buf, ilen := s.len }

/-- The registers of the state replaced. -/
def State.setRegs (s : State) (r : Regs) : State := { s with regs := r }

/-- The HOST's pending inputs replaced. -/
def State.setInbox (s : State) (l : List HostEvent) : State := { s with inbox := l }

/-- One more answer given to the HOST (20_memory.md R61). -/
def State.addAnswer (s : State) (a : Answer) : State := { s with answers := s.answers ++ [a] }

/-! ### The padded-key pipeline -/

/-- `ClearKey()` empties the staging buffer (41_mac_engine.md R141). -/
def clearKey (r : Regs) : Regs := (r.setKey (Vector.replicate 64 0x00) 0).setKeyovf false

/-- `Construct(kp)` builds a live instance from a 64-byte zero-extended key: `OPAD`, then the inner hash fed `ipad`, and
the tag erased. It sets neither `PHASE` nor the staging buffer (41_mac_engine.md R142). -/
def construct (kp : Vector Byte 64) (r : Regs) : Regs :=
  ((r.setOpad (xorPad opadByte kp)).setInner (absorb hashInit (xorPad ipadByte kp).toList)).setDigest
    (Vector.replicate 32 0x00) false

/-- The tag of an instance: a fresh outer hash over `OPAD || inner digest` (41_mac_engine.md R146). -/
def instanceTag (r : Regs) : Vector Byte 32 :=
  digest32 (absorb (absorb hashInit r.opad.toList) (digest32 r.inner).toList)

/-- The instance is destroyed: `IH`, `IBUF`, `ILEN` and `OPAD` are zeroed (41_mac_engine.md R146). -/
def destroyInstance (r : Regs) : Regs :=
  (r.setInner { h := Vector.replicate 8 0x00000000, buf := Vector.replicate 64 0x00, len := 0 }).setOpad
    (Vector.replicate 64 0x00)

/-- `Finalize()` consumes the live instance and returns its tag. It sets neither `PHASE` nor `DIGEST`
(41_mac_engine.md R146). -/
def finalize (r : Regs) : Vector Byte 32 × Regs := (instanceTag r, destroyInstance r)

/-! ### Reset, engine errors and the return from them -/

/-- `ResetState()`: every register takes its reset value, whatever it held (70_reset_and_hazards.md R231). -/
def resetState (_ : Regs) : Regs := Regs.reset

/-- TAKING AN EXCEPTION: `EnterError(code)` (60_exceptions.md R203; `raise E` of 00_scope.md R9). Nothing is saved but the
code; control goes nowhere. -/
def enterError (e : ErrCode) (r : Regs) : Regs := (resetState r).setErr e

/-- THE RETURN FROM IT: `CLEAR` restores nothing and leaves the reset state (60_exceptions.md R212, 43_system_commands.md
R190). -/
def leaveError (r : Regs) : Regs := resetState r

/-- The error-state gate: while `ERR != 0` a push, or a command other than `CLEAR`, changes no register (60_exceptions.md
R209, R211 point 1). -/
def unlessError (f : Regs → Regs) (r : Regs) : Regs := if r.err = .none then f r else r

/-! ### Answering the HOST -/

/-- The answer to a legal write: always `OKAY` (20_memory.md R64). -/
def okayWrite : Answer := { resp := .okay, rdata := none }

/-- The answer to a legal read (20_memory.md R63). -/
def okayRead (v : Word) : Answer := { resp := .okay, rdata := some v }

/-- A legal write: its effect on the registers, and the answer `OKAY` (20_memory.md R64). -/
def answerWrite (f : Regs → Regs) (s : State) : Host.Outcome State Fault Refusal :=
  .next ((s.setRegs (f s.regs)).addAnswer okayWrite)

/-- A legal read: the answer, and no change of any register (20_memory.md R63). -/
def answerRead (view : Regs → Word) (s : State) : Host.Outcome State Fault Refusal :=
  .next (s.addAnswer (okayRead (view s.regs)))

/-- An illegal transaction: `resp = ERROR`, `rdata = 0` for a read, and no change of any register (20_memory.md R65,
60_exceptions.md R208). -/
def busError (t : Transaction) (s : State) : State :=
  s.addAnswer { resp := .error, rdata := match t.dir with | .read => some 0x00000000 | .write => none }

/-! ### The hardware reset -/

/-- The hardware reset between two transactions (70_reset_and_hazards.md R230, R232). It is not answered. -/
def hardwareReset (s : State) : State := s.setRegs (resetState s.regs)

/-- A hardware reset that arrives while a transaction is in progress: the reset state, the transaction's effects lost, and
its response the platform's, a free value (70_reset_and_hazards.md R232; 93_implementation_defined.md U14; log entry 9). -/
def interruptedReset (s : State) : State :=
  let s' := hardwareReset s
  { s' with
    answers := s'.answers ++ (Config.interruptedAnswer s'.interruptions).toList
    interruptions := s'.interruptions + 1 }

end Sys2Proof.Machine
end

