-- ==== Sys2Proof/Machine/Kdf.lean ====
section
/-! DEFINITION. The chained KDF iteration controller: `KDF_START` and `KDF_LABEL` (spec/42_kdf_controller.md). The chain is
that of SW2 §4.2, which wins over SW2 §8 item 6 (spec/90_conflicts.md C1, log entry 17). -/

namespace Sys2Proof.Machine

/-- `KDF_START` on the registers: the instance keyed by the ROM constant; the staged bytes are discarded unused
(42_kdf_controller.md R170). -/
def kdfStart (r : Regs) : Regs := clearKey ((construct (pad64 domain) r).setPhase .kdfPath)

/-- `KDF_LABEL` on the registers: the checks in the order of 60_exceptions.md R211, then steps 2a to 2d
(42_kdf_controller.md R171). -/
def kdfLabel (r : Regs) : Regs :=
  if r.phase = .idle then enterError .macInstanceReused r
  else if r.phase = .mac ∨ r.phase = .kdfKey then enterError .sequenceError r
  else if r.keyovf then enterError .keyTooLong r
  else
    let (v, r1) := finalize r
    let r2 := construct r1.keybuf r1
    let r3 := r2.setInner (absorb r2.inner v.toList)
    clearKey (r3.setPhase .kdfPath)

/-- `KDF_START` (42_kdf_controller.md R170). -/
def execKdfStart (s : State) : Host.Outcome State Fault Refusal :=
  answerWrite (unlessError kdfStart) s

/-- `KDF_LABEL` (42_kdf_controller.md R171). -/
def execKdfLabel (s : State) : Host.Outcome State Fault Refusal :=
  answerWrite (unlessError kdfLabel) s

end Sys2Proof.Machine
end

