-- ==== Sys2Proof/Machine/Mac.lean ====
section
/-! DEFINITION. The MAC engine: `PUSH_KEY`, `MAC_NEW`, `PUSH_DATA`, `FINAL` (spec/41_mac_engine.md). Each register effect is
entered only when `ERR = 0`; the execution puts it behind the error-state gate. -/

namespace Sys2Proof.Machine

/-- One byte of `PushKey`: stored while there is room, else remembered as an overflow (41_mac_engine.md R140). `KEYLEN`
saturates at 64 (40_hash_primitive.md R120). -/
def stageByte (r : Regs) (b : Byte) : Regs :=
  if h : r.keylen.toNat < 64 then
    r.setKey (r.keybuf.set r.keylen.toNat b h) (r.keylen + 1)
  else
    r.setKeyovf true

/-- `PushKey(bs)` (41_mac_engine.md R140). -/
def stageBytes (bs : List Byte) (r : Regs) : Regs := bs.foldl stageByte r

/-- `MAC_NEW` on the registers (41_mac_engine.md R143). -/
def macNew (r : Regs) : Regs :=
  if r.keyovf then enterError .keyTooLong r
  else clearKey ((construct r.keybuf r).setPhase .mac)

/-- `PushData(bs)` on the registers (41_mac_engine.md R144; the phase change is 42_kdf_controller.md R172). -/
def feedData (bs : List Byte) (r : Regs) : Regs :=
  if r.phase = .idle then enterError .macInstanceReused r
  else
    let r' := r.setInner (absorb r.inner bs)
    if r.phase = .kdfPath then r'.setPhase .kdfKey else r'

/-- `FINAL` on the registers (41_mac_engine.md R147). -/
def finalTag (r : Regs) : Regs :=
  if r.phase = .idle then enterError .macInstanceReused r
  else
    let (tag, r') := finalize r
    (r'.setDigest tag true).setPhase .idle

/-- `PUSH_KEY` (41_mac_engine.md R140). -/
def execPushKey (d : WData) (s : State) : Host.Outcome State Fault Refusal :=
  answerWrite (unlessError (stageBytes d.toBytes)) s

/-- `MAC_NEW` (41_mac_engine.md R143). -/
def execMacNew (s : State) : Host.Outcome State Fault Refusal :=
  answerWrite (unlessError macNew) s

/-- `PUSH_DATA` (41_mac_engine.md R144). -/
def execPushData (d : WData) (s : State) : Host.Outcome State Fault Refusal :=
  answerWrite (unlessError (feedData d.toBytes)) s

/-- `FINAL` (41_mac_engine.md R147). -/
def execFinal (s : State) : Host.Outcome State Fault Refusal :=
  answerWrite (unlessError finalTag) s

end Sys2Proof.Machine
end

