-- ==== Sys2Proof/Machine/System.lean ====
section
/-! DEFINITION. The system commands and the register reads: `CLEAR`, `ILLEGAL`, `RD_STATUS`, `RD_DIGEST0` to `RD_DIGEST7`
(spec/43_system_commands.md). -/

namespace Sys2Proof.Machine

/-- `CLEAR`: obeyed in every state, the error state included; it cannot fail (43_system_commands.md R190). -/
def execClear (s : State) : Host.Outcome State Fault Refusal :=
  answerWrite leaveError s

/-- `ILLEGAL`: any other `CMD` word; the word itself is not recorded (43_system_commands.md R191, 60_exceptions.md R201,
R206). -/
def execIllegal (_w : Word) (s : State) : Host.Outcome State Fault Refusal :=
  answerWrite (unlessError (enterError .illegalCommand)) s

/-- `RD_STATUS` (43_system_commands.md R192). -/
def execRdStatus (s : State) : Host.Outcome State Fault Refusal :=
  answerRead statusWord s

/-- `RD_DIGEST0` (43_system_commands.md R192). -/
def execRdDigest0 (s : State) : Host.Outcome State Fault Refusal :=
  answerRead (fun r => digestWord r 0) s

/-- `RD_DIGEST1` (43_system_commands.md R192). -/
def execRdDigest1 (s : State) : Host.Outcome State Fault Refusal :=
  answerRead (fun r => digestWord r 1) s

/-- `RD_DIGEST2` (43_system_commands.md R192). -/
def execRdDigest2 (s : State) : Host.Outcome State Fault Refusal :=
  answerRead (fun r => digestWord r 2) s

/-- `RD_DIGEST3` (43_system_commands.md R192). -/
def execRdDigest3 (s : State) : Host.Outcome State Fault Refusal :=
  answerRead (fun r => digestWord r 3) s

/-- `RD_DIGEST4` (43_system_commands.md R192). -/
def execRdDigest4 (s : State) : Host.Outcome State Fault Refusal :=
  answerRead (fun r => digestWord r 4) s

/-- `RD_DIGEST5` (43_system_commands.md R192). -/
def execRdDigest5 (s : State) : Host.Outcome State Fault Refusal :=
  answerRead (fun r => digestWord r 5) s

/-- `RD_DIGEST6` (43_system_commands.md R192). -/
def execRdDigest6 (s : State) : Host.Outcome State Fault Refusal :=
  answerRead (fun r => digestWord r 6) s

/-- `RD_DIGEST7` (43_system_commands.md R192). -/
def execRdDigest7 (s : State) : Host.Outcome State Fault Refusal :=
  answerRead (fun r => digestWord r 7) s

end Sys2Proof.Machine
end

