-- ==== Sys2Proof/Machine/Dispatch.lean ====
section
/-! DEFINITION. One arm per operation of spec/30_encoding.md R92, each a direct call of its meaning. -/

namespace Sys2Proof.Machine

def exec (i : Instr) (s : State) : Host.Outcome State Fault Refusal :=
  match i with
  | .macNew => Sys2Proof.Machine.execMacNew s
  | .kdfStart => Sys2Proof.Machine.execKdfStart s
  | .kdfLabel => Sys2Proof.Machine.execKdfLabel s
  | .final => Sys2Proof.Machine.execFinal s
  | .clear => Sys2Proof.Machine.execClear s
  | .pushKey d => Sys2Proof.Machine.execPushKey d s
  | .pushData d => Sys2Proof.Machine.execPushData d s
  | .rdStatus => Sys2Proof.Machine.execRdStatus s
  | .rdDigest0 => Sys2Proof.Machine.execRdDigest0 s
  | .rdDigest1 => Sys2Proof.Machine.execRdDigest1 s
  | .rdDigest2 => Sys2Proof.Machine.execRdDigest2 s
  | .rdDigest3 => Sys2Proof.Machine.execRdDigest3 s
  | .rdDigest4 => Sys2Proof.Machine.execRdDigest4 s
  | .rdDigest5 => Sys2Proof.Machine.execRdDigest5 s
  | .rdDigest6 => Sys2Proof.Machine.execRdDigest6 s
  | .rdDigest7 => Sys2Proof.Machine.execRdDigest7 s
  | .illegal w => Sys2Proof.Machine.execIllegal w s

end Sys2Proof.Machine
end

