-- ==== Sys2Proof/Machine/Step.lean ====
section
/-! DEFINITION. The step: the CORE accepts the HOST's oldest pending input and performs it whole (spec/00_scope.md R6,
spec/20_memory.md R68, R71). -/

namespace Sys2Proof.Machine

/-- One input performed: a legal transaction is the operation it decodes to (30_encoding.md R91), an illegal one is
answered `ERROR` (20_memory.md R65), a hardware reset gives the reset state (70_reset_and_hazards.md R230, R232). -/
def perform (e : HostEvent) (s : State) : Host.Outcome State Fault Refusal :=
  match e with
  | .access t =>
    match decode t with
    | .ok i => exec i s
    | .error _ => .next (busError t s)
  | .reset => .next (hardwareReset s)
  | .resetDuring _ => .next (interruptedReset s)

/-- One step. With no input pending nothing happens: "The ENGINE never acts on its own between transactions" (00_scope.md
R6; DEDUCED, log entry 3). -/
def step (s : State) : Host.Outcome State Fault Refusal :=
  match s.inbox with
  | [] => .next s
  | e :: rest => perform e (s.setInbox rest)

/-- `s` with the transaction of a word of spec/opcode_table.json as the HOST's next input (log entries 2 and 5). -/
def State.withFetchWord (s : State) (nbits w : Nat) : State :=
  s.setInbox (.access (tableTransaction nbits w) :: s.inbox)

end Sys2Proof.Machine
end

