-- ==== Sys2Proof/Machine/Platform.lean ====
section
/-! DEFINITION. The platform around the CORE: `BASE` and `N_INSTANCES`, the two open parameters of spec/00_scope.md R5, as
arguments. A platform is a list of COREs, each with a window of its own; a bus request names an absolute address
(log entry 13). -/

namespace Sys2Proof.Machine

/-- One CORE and where the platform placed it. `window` is `BASE / 64`: `BASE` is a multiple of 64 (20_memory.md R66). -/
structure Slot where
  window : Nat
  core   : State
deriving DecidableEq, Repr

/-- `BASE` of a CORE (00_scope.md R5). -/
def Slot.base (c : Slot) : Nat := 64 * c.window

/-- The COREs of a platform; their number is `N_INSTANCES` (00_scope.md R5, 60_exceptions.md R217). -/
structure Platform where
  slots : List Slot
deriving DecidableEq, Repr

/-- A request of a bus master, at an absolute address (00_scope.md R9: "absolute address `BASE + off`"). Nothing says who
the master is (20_memory.md R70). -/
inductive BusRequest where
  | read (addr : Nat) (size : Size)
  | write (addr : Nat) (data : WData)
deriving DecidableEq, Repr

/-- The absolute address of a request. -/
def BusRequest.addr : BusRequest → Nat
  | .read addr _ => addr
  | .write addr _ => addr

/-- "Only the low 6 bits of the address select within the window" (20_memory.md R60). -/
def BusRequest.transaction : BusRequest → Transaction
  | .read addr size => .read (BitVec.ofNat 6 addr) size
  | .write addr d => .write (BitVec.ofNat 6 addr) d

/-- The address lies in the 64 bytes of the CORE's window (20_memory.md R60, 00_scope.md R5). -/
def Slot.claims (c : Slot) (addr : Nat) : Bool := addr / 64 == c.window

/-- A CORE with one more pending input. -/
def Slot.deliver (c : Slot) (e : HostEvent) : Slot := { c with core := c.core.setInbox (c.core.inbox ++ [e]) }

/-- The interconnect delivers a request to the CORE whose window the address lies in, behind what that CORE has pending
(20_memory.md R71). -/
def Platform.deliver (p : Platform) (q : BusRequest) : Platform where
  slots := p.slots.map fun c => if c.claims q.addr then c.deliver (.access q.transaction) else c

/-- One CORE takes a step. -/
def Slot.advance (c : Slot) : Slot :=
  match step c.core with
  | .next s => { c with core := s }
  | .fault _ => c
  | .refused _ => c

/-- CORE number `n` of the platform takes a step; distinct COREs share no state (60_exceptions.md R217). -/
def Platform.advance (p : Platform) (n : Nat) : Platform where
  slots := p.slots.modify n Slot.advance

end Sys2Proof.Machine
end

