-- ==== Sys2Proof/Machine/Reference.lean ====
section
/-! DEFINITION. What the CORE computes, in mathematical form, independent of its registers: the hash of a whole message, the
MAC and the KDF (spec/00_scope.md R10, R11; spec/40_hash_primitive.md R113, R114), and the abstract machine over byte strings
that the registers represent (spec/10_state.md R28 to R31). The step uses none of it; statements compare the step with it. -/

namespace Sys2Proof.Machine

/-- `H(m) = Digest32(Absorb(HashInit(), m))` (40_hash_primitive.md R114). -/
def hashOf (m : List Byte) : Vector Byte 32 := digest32 (absorb hashInit m)

/-! ### SHA-256 of a whole message -/

/-- The padded message: `0x80`, the fewest zero bytes that bring the total to 56 modulo 64, then the length in bits in 8
bytes, most significant first (40_hash_primitive.md R113). -/
def padMessage (m : List Byte) : List Byte :=
  m ++ [0x80] ++ List.replicate ((119 - m.length % 64) % 64) 0x00 ++ be64 (BitVec.ofNat 64 (8 * m.length))

/-- `Compress` over the first `n` blocks of 64 bytes, from the chaining value `h` (40_hash_primitive.md R112). -/
def compressBlocks : Nat → Vector Word 8 → List Byte → Vector Word 8
  | 0, h, _ => h
  | n + 1, h, bytes => compressBlocks n (compress h (bytes.take 64)) (bytes.drop 64)

/-- The SHA-256 digest of a whole message (40_hash_primitive.md R113, R121). -/
def sha256 (m : List Byte) : Vector Byte 32 :=
  serialize (compressBlocks ((padMessage m).length / 64) iv (padMessage m))

/-! ### MAC and KDF -/

/-- The value of `MAC(k, m)` where it is defined (00_scope.md R10). -/
def macValue (k m : List Byte) : Vector Byte 32 :=
  hashOf ((xorPad opadByte (pad64 k)).toList ++ (hashOf ((xorPad ipadByte (pad64 k)).toList ++ m)).toList)

/-- `MAC(k, m)`: not defined for a key longer than 64 bytes, where the request fails with `KeyTooLong` (00_scope.md
R10). -/
def mac (k m : List Byte) : Option (Vector Byte 32) :=
  if k.length ≤ 64 then some (macValue k m) else none

/-- The chain from an instance with key `k` and message `m`: each label becomes the key of the next instance, fed the tag of
the one before; the caller's key is fed last (00_scope.md R11; 42_kdf_controller.md R174). -/
def kdfFrom (k m key : List Byte) : List (List Byte) → Option (Vector Byte 32)
  | [] => mac k (m ++ key)
  | p :: path =>
    match mac k m with
    | some v => kdfFrom p v.toList key path
    | none => none

/-- `KDF(key, path)` (00_scope.md R11). -/
def kdf (key : List Byte) (path : List (List Byte)) : Option (Vector Byte 32) := kdfFrom domain [] key path

/-! ### The abstract machine -/

/-- The CORE over byte strings, with no hash state and no buffers: the bytes staged since the staging buffer was last
emptied, all of them, and for the live instance its key and the message fed so far. -/
structure Abstract where
  phase   : Phase
  err     : ErrCode
  staged  : List Byte
  key     : List Byte
  message : List Byte
  tag     : Option (Vector Byte 32)
deriving DecidableEq, Repr

/-- The abstract machine at reset. -/
def Abstract.reset : Abstract where
  phase := .idle
  err := .none
  staged := []
  key := []
  message := []
  tag := none

/-- A new instance with key `k` and message `m`, and nothing staged (41_mac_engine.md R142, R143). -/
def Abstract.start (p : Phase) (k m : List Byte) : Abstract where
  phase := p
  err := .none
  staged := []
  key := k
  message := m
  tag := none

/-- The error state with code `e` (60_exceptions.md R203). -/
def Abstract.raise (e : ErrCode) : Abstract := { Abstract.reset with err := e }

/-- What an operation does to the abstract machine (41_mac_engine.md R140 to R147, 42_kdf_controller.md R170, R171, R176,
43_system_commands.md R190 to R192, 60_exceptions.md R209). -/
def Abstract.perform (i : Instr) (a : Abstract) : Abstract :=
  match i with
  | .clear => Abstract.reset
  | .pushKey d => if a.err = .none then { a with staged := a.staged ++ d.toBytes } else a
  | .pushData d =>
    if a.err ≠ .none then a
    else if a.phase = .idle then Abstract.raise .macInstanceReused
    else { a with message := a.message ++ d.toBytes, phase := if a.phase = .kdfPath then .kdfKey else a.phase }
  | .macNew =>
    if a.err ≠ .none then a
    else if 64 < a.staged.length then Abstract.raise .keyTooLong
    else Abstract.start .mac a.staged []
  | .kdfStart => if a.err ≠ .none then a else Abstract.start .kdfPath domain []
  | .kdfLabel =>
    if a.err ≠ .none then a
    else if a.phase = .idle then Abstract.raise .macInstanceReused
    else if a.phase ≠ .kdfPath then Abstract.raise .sequenceError
    else if 64 < a.staged.length then Abstract.raise .keyTooLong
    else Abstract.start .kdfPath a.staged (macValue a.key a.message).toList
  | .final =>
    if a.err ≠ .none then a
    else if a.phase = .idle then Abstract.raise .macInstanceReused
    else { a with phase := .idle, key := [], message := [], tag := some (macValue a.key a.message) }
  | .illegal _ => if a.err ≠ .none then a else Abstract.raise .illegalCommand
  | .rdStatus => a
  | .rdDigest0 => a
  | .rdDigest1 => a
  | .rdDigest2 => a
  | .rdDigest3 => a
  | .rdDigest4 => a
  | .rdDigest5 => a
  | .rdDigest6 => a
  | .rdDigest7 => a

/-- The registers represent the abstract machine: the staging buffer holds the first 64 staged bytes and remembers whether
there were more (10_state.md R26 to R28); the inner hash state is that of `ipad || message` (R30); `OPAD` is the outer pad
of the key (R29); with no live instance these registers are zero (R37 I3); `DIGEST` is the tag, or zero (R31). -/
structure Represents (a : Abstract) (r : Regs) : Prop where
  phase : r.phase = a.phase
  err : r.err = a.err
  keylen : r.keylen.toNat = min 64 a.staged.length
  keyovf : r.keyovf = decide (64 < a.staged.length)
  keybuf : r.keybuf = pad64 (a.staged.take 64)
  opad : r.opad = if a.phase = .idle then Vector.replicate 64 0x00 else xorPad opadByte (pad64 a.key)
  inner : r.inner = if a.phase = .idle then Regs.reset.inner
    else absorb hashInit ((xorPad ipadByte (pad64 a.key)).toList ++ a.message)
  digestValid : r.digestValid = a.tag.isSome
  digest : r.digest = a.tag.getD (Vector.replicate 32 0x00)

end Sys2Proof.Machine
end

