-- ==== Sys2Proof/Machine/Script.lean ====
section
/-! DEFINITION. The script notation: one transaction a line, and the pseudo-instructions with their expansions
(spec/30_encoding.md R97, R98). -/

namespace Sys2Proof.Machine

/-- The five command names of a `cmd` line (30_encoding.md R97). -/
inductive Command where
  | macNew
  | kdfStart
  | kdfLabel
  | final
  | clear
deriving DecidableEq, Repr

/-- The word each command name stands for (30_encoding.md R92, R97). -/
def Command.word : Command → Word
  | .macNew => 0x00000001
  | .kdfStart => 0x00000002
  | .kdfLabel => 0x00000003
  | .final => 0x00000004
  | .clear => 0x00000005

/-- A script line (30_encoding.md R97): `cmd`, `cmd.raw`, `key.b/h/w`, `data.b/h/w`, `rd STATUS`, `rd DIGESTn`, `bus`. -/
inductive Line where
  | cmd (c : Command)
  | cmdRaw (w : Word)
  | key (d : WData)
  | data (d : WData)
  | rdStatus
  | rdDigest (n : Fin 8)
  | bus (t : Transaction)
deriving DecidableEq, Repr

/-- The transaction of a line, as R97 writes it: `W 4 00 …`, `W s 08 …`, `W s 0C …`, `R 4 04`, `R 4 10+4n`. -/
def Line.transaction : Line → Transaction
  | .cmd c => .write 0x00 (.w c.word)
  | .cmdRaw w => .write 0x00 (.w w)
  | .key d => .write 0x08 d
  | .data d => .write 0x0C d
  | .rdStatus => .read 0x04 .word
  | .rdDigest n => .read (BitVec.ofNat 6 (0x10 + 4 * n.val)) .word
  | .bus t => t

/-- The pushes that deliver a byte string: words of four bytes, then one half word if two or more bytes are left, then one
byte if the length is odd; none for the empty string (30_encoding.md R98, `KEY s` and `DATA s`). -/
def pushesOf : List Byte → List WData
  | b0 :: b1 :: b2 :: b3 :: rest => .w (le32 b0 b1 b2 b3) :: pushesOf rest
  | [b0, b1, b2] => [.h (le16 b0 b1), .b b2]
  | [b0, b1] => [.h (le16 b0 b1)]
  | [b0] => [.b b0]
  | [] => []

/-- `KEY s` (30_encoding.md R98). -/
def keyLines (s : List Byte) : List Line := (pushesOf s).map .key

/-- `DATA s` (30_encoding.md R98). -/
def dataLines (s : List Byte) : List Line := (pushesOf s).map .data

/-- `KEY.bytes s` (30_encoding.md R98). -/
def keyByteLines (s : List Byte) : List Line := s.map fun b => .key (.b b)

/-- `DATA.bytes s` (30_encoding.md R98). -/
def dataByteLines (s : List Byte) : List Line := s.map fun b => .data (.b b)

/-- `TAG` (30_encoding.md R98). -/
def tagLines : List Line :=
  [.rdDigest 0, .rdDigest 1, .rdDigest 2, .rdDigest 3, .rdDigest 4, .rdDigest 5, .rdDigest 6, .rdDigest 7]

/-- The bytes of the words that `TAG` reads, least significant byte first (30_encoding.md R98). -/
def unpackWords (ws : List Word) : List Byte := ws.flatMap fun w => (WData.w w).toBytes

/-- `MAC(k, m)` as a script, for pushes `ks` of the key and `ds` of the message (30_encoding.md R98, up to `cmd FINAL`; any
split into pushes). -/
def macLines (ks ds : List WData) : List Line :=
  ks.map .key ++ [.cmd .macNew] ++ ds.map .data ++ [.cmd .final]

/-- One label of the `KDF` script, delivered by the pushes `ps` (30_encoding.md R98). -/
def labelLines (ps : List WData) : List Line := ps.map .key ++ [.cmd .kdfLabel]

/-- `KDF(key, path)` as a script, for pushes `ps` of each label and `ds` of the caller's key (30_encoding.md R98, up to
`cmd FINAL`; any split into pushes). -/
def kdfLines (ps : List (List WData)) (ds : List WData) : List Line :=
  [.cmd .kdfStart] ++ ps.flatMap labelLines ++ ds.map .data ++ [.cmd .final]

/-- The byte string that pushes deliver (30_encoding.md R94). -/
def pushedBytes (ds : List WData) : List Byte := ds.flatMap WData.toBytes

/-- The HOST issues a script: its transactions become the pending inputs, in order. -/
def State.issue (s : State) (ls : List Line) : State :=
  s.setInbox (ls.map fun l => .access l.transaction)

end Sys2Proof.Machine
end

