-- ==== Sys2Proof/Safety.lean ====
section
/-! DEFINITION. What counts as a safe state and a safe run, in the terms the statements use: the invariants of
spec/10_state.md R37, what the HOST can see (R20, R38), and when a tag may be trusted (spec/70_reset_and_hazards.md R234). -/

namespace Sys2Proof

/-- A transaction is legal exactly when its `(dir, off, size)` is one of those listed in 20_memory.md R62: written from that
list, and not from the decoder. -/
abbrev Transaction.Legal (t : Transaction) : Prop :=
  (t.dir = .write ∧ t.off = 0x00 ∧ t.size = .word) ∨
  (t.dir = .read ∧ t.off = 0x04 ∧ t.size = .word) ∨
  (t.dir = .write ∧ t.off = 0x08 ∧ (t.size = .byte ∨ t.size = .half ∨ t.size = .word)) ∨
  (t.dir = .write ∧ t.off = 0x0C ∧ (t.size = .byte ∨ t.size = .half ∨ t.size = .word)) ∨
  (t.dir = .read ∧ (∃ n : Fin 8, t.off.toNat = 0x10 + 4 * n.val) ∧ t.size = .word)

/-- The input is the command `FINAL`, which publishes a value computed from the hidden registers (10_state.md R36). -/
def HostEvent.isFinal : HostEvent → Bool
  | .access t => decide (decode t = .ok .final)
  | .reset => false
  | .resetDuring _ => false

end Sys2Proof

namespace Sys2Proof.Machine

/-- The invariants I1 to I8 of 10_state.md R37, but for the clause `ILEN >= 64` of I4, which holds "mod-2^64 wrap aside"
and stands in `Regs.HoldsPadBlock`. -/
structure Regs.Inv (r : Regs) : Prop where
  /-- I1, first half -/
  keylen_le : r.keylen.toNat ≤ 64
  /-- I1, second half -/
  keybuf_zero : ∀ i : Fin 64, r.keylen.toNat ≤ i.val → r.keybuf[i] = 0x00
  /-- I2 -/
  keyovf_full : r.keyovf = true → r.keylen = 64
  /-- I3 -/
  idle_zero : r.phase = .idle →
    r.opad = Vector.replicate 64 0x00 ∧ r.ih = Vector.replicate 8 0x00000000 ∧
      r.ibuf = Vector.replicate 64 0x00 ∧ r.ilen = 0
  /-- I4, second clause -/
  ibuf_zero : r.phase ≠ .idle → ∀ i : Fin 64, r.ilen.toNat % 64 ≤ i.val → r.ibuf[i] = 0x00
  /-- I5 -/
  valid_idle : r.digestValid = true → r.phase = .idle ∧ r.err = .none
  /-- I6 -/
  invalid_zero : r.digestValid = false → r.digest = Vector.replicate 32 0x00
  /-- I7 -/
  err_reset : r.err ≠ .none → r = { Regs.reset with err := r.err }
  /-- I8 -/
  err_code : r.err.code.toNat ≤ 4

/-- I4 of 10_state.md R37, first clause: a live instance has absorbed its `ipad` block. -/
def Regs.HoldsPadBlock (r : Regs) : Prop := r.phase ≠ .idle → 64 ≤ r.ilen.toNat

/-- What the HOST can read: the column "read by HOST" of 10_state.md R20. -/
structure HostView where
  phase       : Phase
  err         : ErrCode
  digestValid : Bool
  keyovf      : Bool
  keylen      : BitVec 7
  digest      : Vector Byte 32
deriving DecidableEq, Repr

/-- The HOST's view of the registers (10_state.md R20). -/
def Regs.hostView (r : Regs) : HostView where
  phase := r.phase
  err := r.err
  digestValid := r.digestValid
  keyovf := r.keyovf
  keylen := r.keylen
  digest := r.digest

/-- A driver's test after `cmd FINAL`: success is exactly `STATUS[7:0] = 0x04` (70_reset_and_hazards.md R234). -/
def tagTrusted (r : Regs) : Bool := (statusWord r).extractLsb' 0 8 == 0x04

/-- A safe run: `n` steps, each answering a next state (70_reset_and_hazards.md R246), from a state that meets the
invariants to one that meets them. -/
def SafeRun (n : Nat) (s : State) : Prop :=
  s.regs.Inv → ∃ t, Host.Core.run Sys2Proof.core n s = .next t ∧ t.regs.Inv

end Sys2Proof.Machine
end

