-- ==== Sys2Proof/Certificates/Slice0/Obligations.lean ====
section
/-! DEFINITION. The statements for the provers. Each docstring names the rule of spec/ it formalises. -/

open Sys2Proof Sys2Proof.Machine

/-! ### Decoding and the step -/

/-- Decode and encode agree, with every operand at every value (30_encoding.md R92). -/
def Obligations.EncodedInstructionsDecodeBack : Prop :=
  ∀ i : Instr, i.wellFormed = true → decode (encode i) = .ok i

/-- Each legal transaction has one meaning: what it decodes to is well formed and encodes back to it (30_encoding.md R92). -/
def Obligations.DecodedTransactionsEncodeBack : Prop :=
  ∀ (t : Transaction) (i : Instr), decode t = .ok i → i.wellFormed = true ∧ encode i = t

/-- The decoder accepts exactly the transactions that R62 lists (20_memory.md R62). -/
def Obligations.LegalTransactionsDecode : Prop :=
  ∀ t : Transaction, t.Legal ↔ ∃ i, decode t = .ok i

/-- Words written out from the encodings of 30_encoding.md R92 and R97 decode to the operations they stand for. -/
def Obligations.WrittenOutTransactionsDecode : Prop :=
  decode (.write 0x00 (.w 0x00000001)) = .ok .macNew ∧
  decode (.write 0x00 (.w 0x00000002)) = .ok .kdfStart ∧
  decode (.write 0x00 (.w 0x00000003)) = .ok .kdfLabel ∧
  decode (.write 0x00 (.w 0x00000004)) = .ok .final ∧
  decode (.write 0x00 (.w 0x00000005)) = .ok .clear ∧
  decode (.write 0x08 (.h 0x656b)) = .ok (.pushKey (.h 0x656b)) ∧
  decode (.write 0x0C (.w 0x20656854)) = .ok (.pushData (.w 0x20656854)) ∧
  decode (.read 0x04 .word) = .ok .rdStatus ∧
  decode (.read 0x10 .word) = .ok .rdDigest0 ∧
  decode (.read 0x2C .word) = .ok .rdDigest7 ∧
  decode (.write 0x00 (.w 0x00000105)) = .ok (.illegal 0x00000105)

/-- A step runs the decoded instruction: when the HOST's oldest pending input is a transaction that decodes to `i`, the step
takes it from the pending inputs and is `exec i` (20_memory.md R64, R71; 30_encoding.md R91). -/
def Obligations.StepRunsTheDecodedInstruction : Prop :=
  ∀ (s : State) (t : Transaction) (rest : List HostEvent) (i : Instr),
    s.inbox = .access t :: rest → decode t = .ok i → step s = exec i { s with inbox := rest }

/-- An illegal transaction is answered `ERROR`, with data 0 for a read, and changes no register (20_memory.md R65;
60_exceptions.md R208). -/
def Obligations.IllegalTransactionsOnlyAnswerError : Prop :=
  ∀ (s : State) (t : Transaction) (rest : List HostEvent),
    s.inbox = .access t :: rest → ¬ t.Legal →
    step s = .next { s with
      inbox := rest
      answers := s.answers ++ [⟨.error, if t.dir = .read then some 0x00000000 else none⟩] }

/-- Every transaction is answered, once, whatever the state: with `OKAY` exactly when it is legal, and with data exactly
when it is a read (20_memory.md R61, R64, R65; 70_reset_and_hazards.md R246). -/
def Obligations.EveryTransactionIsAnsweredOnce : Prop :=
  ∀ (s : State) (t : Transaction) (rest : List HostEvent),
    s.inbox = .access t :: rest →
    ∃ s' a, step s = .next s' ∧ s'.inbox = rest ∧ s'.answers = s.answers ++ [a] ∧
      (a.resp = .okay ↔ t.Legal) ∧ (a.rdata.isSome = true ↔ t.dir = .read)

/-- With no input pending nothing happens (00_scope.md R6). That a step is then taken at all is the model's (log entry 3). -/
def Obligations.NoInputNoChange : Prop :=
  ∀ s : State, s.inbox = [] → step s = .next s

/-! ### Reset -/

/-- The hardware reset gives every register the value R231 lists, from any state; the HOST then sees zero everywhere, and an
operation that needs an instance raises `MacInstanceReused` (70_reset_and_hazards.md R230, R231, R232). That the pending
inputs, the answers so far and the counter of interruptions are kept over the reset is the model's choice and no rule of the
spec (log entry 10). -/
def Obligations.HardwareResetWritesEveryRegister : Prop :=
  (∀ (s : State) (rest : List HostEvent), s.inbox = .reset :: rest →
    step s = .next { s with
      inbox := rest
      regs := {
        phase := .idle, err := .none, digestValid := false, keyovf := false, keylen := 0
        keybuf := Vector.replicate 64 0x00, opad := Vector.replicate 64 0x00
        ih := Vector.replicate 8 0x00000000, ibuf := Vector.replicate 64 0x00, ilen := 0
        digest := Vector.replicate 32 0x00 } }) ∧
  (∀ s : State, s.regs = State.reset.regs →
    statusWord s.regs = 0x00000000 ∧ (∀ n : Fin 8, digestWord s.regs n = 0x00000000) ∧
    doneLine s.regs = false ∧ errLine s.regs = false ∧
    ∀ i : Instr, (i = .final ∨ i = .kdfLabel ∨ ∃ d, i = .pushData d) →
      ∃ t, exec i s = .next t ∧ t.regs = { State.reset.regs with err := .macInstanceReused })

/-- A reset that cuts a transaction short leaves the reset registers; the response the HOST saw, if any, is a free value:
this holds whatever it is (70_reset_and_hazards.md R231, R232; log entry 9). That the later inputs and the earlier answers
are kept over the reset is the model's choice and no rule of the spec (log entry 10). -/
def Obligations.InterruptedTransactionsLeaveTheResetRegisters : Prop :=
  ∀ (s : State) (t : Transaction) (rest : List HostEvent), s.inbox = .resetDuring t :: rest →
    ∃ s', step s = .next s' ∧ s'.regs = State.reset.regs ∧ s'.inbox = rest ∧
      (s'.answers = s.answers ∨ ∃ a, s'.answers = s.answers ++ [a])

/-! ### Invariants -/

/-- The reset state meets the invariants (10_state.md R37). -/
def Obligations.ResetStateMeetsTheInvariants : Prop :=
  State.reset.regs.Inv ∧ State.reset.regs.HoldsPadBlock

/-- Every step keeps the invariants I1 to I8, from every state that meets them (10_state.md R37). -/
def Obligations.EveryStepKeepsTheInvariants : Prop :=
  ∀ s s' : State, s.regs.Inv → step s = .next s' → s'.regs.Inv

/-- I4's other clause: a live instance has absorbed at least its pad block, as long as the byte count does not wrap in this
step (10_state.md R37: "mod-2^64 wrap aside"). -/
def Obligations.LiveInstancesKeepTheirPadBlock : Prop :=
  ∀ s s' : State, s.regs.HoldsPadBlock → s.regs.ilen.toNat + 4 < 2 ^ 64 → step s = .next s' →
    s'.regs.HoldsPadBlock

/-- No run ends in a fault or a refusal, and every run keeps the invariants (70_reset_and_hazards.md R246; 10_state.md
R37). -/
def Obligations.EveryRunIsAnsweredAndSafe : Prop :=
  ∀ (n : Nat) (s : State), (∃ t, Host.Core.run Sys2Proof.core n s = .next t) ∧ SafeRun n s

/-! ### The operations -/

/-- `PUSH_KEY` (41_mac_engine.md R140): the bytes of the push, least significant first, go to the next free places of
`KEYBUF`; `KEYLEN` saturates at 64; a byte beyond 64 sets `KEYOVF`; nothing else changes. With `ERR != 0` no register
changes. The premise is I1. Each statement of an operation also says which transaction it is. -/
def Obligations.PushKeyStagesTheBytes : Prop :=
  (∀ d : WData, decode (.write 0x08 d) = .ok (.pushKey d)) ∧
  ∀ (d : WData) (s : State), s.regs.keylen.toNat ≤ 64 →
    (s.regs.err = .none →
      ∃ kb : Vector Byte 64,
        (∀ i : Fin 64, kb[i] =
          if s.regs.keylen.toNat ≤ i.val ∧ i.val < s.regs.keylen.toNat + d.size.bytes then
            BitVec.ofNat 8 (d.toNat / 2 ^ (8 * (i.val - s.regs.keylen.toNat)))
          else s.regs.keybuf[i]) ∧
        exec (.pushKey d) s = .next { s with
          regs := { s.regs with
            keybuf := kb
            keylen := BitVec.ofNat 7 (min 64 (s.regs.keylen.toNat + d.size.bytes))
            keyovf := s.regs.keyovf || decide (64 < s.regs.keylen.toNat + d.size.bytes) }
          answers := s.answers ++ [⟨.okay, none⟩] }) ∧
    (s.regs.err ≠ .none →
      exec (.pushKey d) s = .next { s with answers := s.answers ++ [⟨.okay, none⟩] })

/-- `MAC_NEW` (41_mac_engine.md R142, R143): with more than 64 bytes staged, `KeyTooLong`; else, in every phase, a new
instance: `OPAD` the staged key xor `5c`, `ipad` the staged key xor `36` compressed once, the tag erased, the staging buffer
emptied. -/
def Obligations.MacNewBuildsTheInstance : Prop :=
  decode (.write 0x00 (.w 0x00000001)) = .ok .macNew ∧
  ∀ s : State,
    (s.regs.err = .none → s.regs.keyovf = false →
      exec .macNew s = .next { s with
        regs := {
          phase := .mac, err := .none, digestValid := false, keyovf := false, keylen := 0
          keybuf := Vector.replicate 64 0x00
          opad := s.regs.keybuf.map (fun b => b ^^^ 0x5c)
          ih := compress iv (s.regs.keybuf.toList.map (fun b => b ^^^ 0x36))
          ibuf := Vector.replicate 64 0x00, ilen := 64
          digest := Vector.replicate 32 0x00 }
        answers := s.answers ++ [⟨.okay, none⟩] }) ∧
    (s.regs.err = .none → s.regs.keyovf = true →
      exec .macNew s = .next { s with
        regs := { Regs.reset with err := .keyTooLong }
        answers := s.answers ++ [⟨.okay, none⟩] }) ∧
    (s.regs.err ≠ .none → exec .macNew s = .next { s with answers := s.answers ++ [⟨.okay, none⟩] })

/-- `PUSH_DATA` (41_mac_engine.md R144): with no live instance, `MacInstanceReused`; else the bytes are absorbed into the
inner hash, in order, and the first push of a KDF chain moves `PHASE` to `KDF_KEY`; nothing else changes. As long as they
complete no block, the bytes wait in `IBUF` behind those already there. -/
def Obligations.PushDataFeedsTheInstance : Prop :=
  (∀ d : WData, decode (.write 0x0C d) = .ok (.pushData d)) ∧
  ∀ (d : WData) (s : State),
    (s.regs.err = .none → s.regs.phase ≠ .idle →
      ∃ x : HashState, x = absorb ⟨s.regs.ih, s.regs.ibuf, s.regs.ilen⟩ d.toBytes ∧
        x.len = s.regs.ilen + BitVec.ofNat 64 d.size.bytes ∧
        (s.regs.ilen.toNat % 64 + d.size.bytes < 64 → x.h = s.regs.ih ∧
          ∀ i : Fin 64, x.buf[i] =
            if s.regs.ilen.toNat % 64 ≤ i.val ∧ i.val < s.regs.ilen.toNat % 64 + d.size.bytes then
              BitVec.ofNat 8 (d.toNat / 2 ^ (8 * (i.val - s.regs.ilen.toNat % 64)))
            else s.regs.ibuf[i]) ∧
        exec (.pushData d) s = .next { s with
          regs := { s.regs with
            ih := x.h, ibuf := x.buf, ilen := x.len
            phase := if s.regs.phase = .kdfPath then .kdfKey else s.regs.phase }
          answers := s.answers ++ [⟨.okay, none⟩] }) ∧
    (s.regs.err = .none → s.regs.phase = .idle →
      exec (.pushData d) s = .next { s with
        regs := { Regs.reset with err := .macInstanceReused }
        answers := s.answers ++ [⟨.okay, none⟩] }) ∧
    (s.regs.err ≠ .none →
      exec (.pushData d) s = .next { s with answers := s.answers ++ [⟨.okay, none⟩] })

/-- `FINAL` (41_mac_engine.md R146, R147): with no live instance, `MacInstanceReused`; else the tag, the hash of `OPAD`
followed by the inner digest and nothing else, is in `DIGEST`, the instance is destroyed, and the staging buffer is as it
was. -/
def Obligations.FinalPublishesTheTag : Prop :=
  decode (.write 0x00 (.w 0x00000004)) = .ok .final ∧
  ∀ s : State,
    (s.regs.err = .none → s.regs.phase ≠ .idle →
      exec .final s = .next { s with
        regs := { s.regs with
          phase := .idle, digestValid := true
          digest := hashOf (s.regs.opad.toList ++ (digest32 ⟨s.regs.ih, s.regs.ibuf, s.regs.ilen⟩).toList)
          opad := Vector.replicate 64 0x00, ih := Vector.replicate 8 0x00000000
          ibuf := Vector.replicate 64 0x00, ilen := 0 }
        answers := s.answers ++ [⟨.okay, none⟩] }) ∧
    (s.regs.err = .none → s.regs.phase = .idle →
      exec .final s = .next { s with
        regs := { Regs.reset with err := .macInstanceReused }
        answers := s.answers ++ [⟨.okay, none⟩] }) ∧
    (s.regs.err ≠ .none → exec .final s = .next { s with answers := s.answers ++ [⟨.okay, none⟩] })

/-- `KDF_START` (42_kdf_controller.md R170): in every phase, and whatever is staged, the instance keyed by `DOMAIN`, with the
pad bytes R170 writes out. -/
def Obligations.KdfStartBuildsTheDomainInstance : Prop :=
  decode (.write 0x00 (.w 0x00000002)) = .ok .kdfStart ∧
  ∀ s : State,
    (s.regs.err = .none →
      ∃ op : Vector Byte 64,
        op.toList = [0x0a, 0x11, 0x39, 0x2f, 0x2f, 0x7c, 0x1d, 0x19, 0x1d, 0x18, 0x7c, 0x17, 0x18, 0x1a] ++
          List.replicate 50 0x5c ∧
        exec .kdfStart s = .next { s with
          regs := {
            phase := .kdfPath, err := .none, digestValid := false, keyovf := false, keylen := 0
            keybuf := Vector.replicate 64 0x00
            opad := op
            ih := compress iv ([0x60, 0x7b, 0x53, 0x45, 0x45, 0x16, 0x77, 0x73, 0x77, 0x72, 0x16, 0x7d, 0x72, 0x70] ++
              List.replicate 50 0x36)
            ibuf := Vector.replicate 64 0x00, ilen := 64
            digest := Vector.replicate 32 0x00 }
          answers := s.answers ++ [⟨.okay, none⟩] }) ∧
    (s.regs.err ≠ .none → exec .kdfStart s = .next { s with answers := s.answers ++ [⟨.okay, none⟩] })

/-- `KDF_LABEL` (42_kdf_controller.md R171): the three errors in their order of priority; else the tag `v` of the live
instance waits in `IBUF` of a new instance keyed by the staged label, `ILEN = 96`, and the staging buffer is empty. -/
def Obligations.KdfLabelFoldsTheLabel : Prop :=
  decode (.write 0x00 (.w 0x00000003)) = .ok .kdfLabel ∧
  ∀ s : State,
    (s.regs.err = .none → s.regs.phase = .kdfPath → s.regs.keyovf = false →
      ∃ ib : Vector Byte 64,
        ib.toList = (hashOf (s.regs.opad.toList ++
          (digest32 ⟨s.regs.ih, s.regs.ibuf, s.regs.ilen⟩).toList)).toList ++ List.replicate 32 0x00 ∧
        exec .kdfLabel s = .next { s with
          regs := {
            phase := .kdfPath, err := .none, digestValid := false, keyovf := false, keylen := 0
            keybuf := Vector.replicate 64 0x00
            opad := s.regs.keybuf.map (fun b => b ^^^ 0x5c)
            ih := compress iv (s.regs.keybuf.toList.map (fun b => b ^^^ 0x36))
            ibuf := ib, ilen := 96
            digest := Vector.replicate 32 0x00 }
          answers := s.answers ++ [⟨.okay, none⟩] }) ∧
    (s.regs.err = .none → s.regs.phase = .idle →
      exec .kdfLabel s = .next { s with
        regs := { Regs.reset with err := .macInstanceReused }
        answers := s.answers ++ [⟨.okay, none⟩] }) ∧
    (s.regs.err = .none → s.regs.phase = .mac ∨ s.regs.phase = .kdfKey →
      exec .kdfLabel s = .next { s with
        regs := { Regs.reset with err := .sequenceError }
        answers := s.answers ++ [⟨.okay, none⟩] }) ∧
    (s.regs.err = .none → s.regs.phase = .kdfPath → s.regs.keyovf = true →
      exec .kdfLabel s = .next { s with
        regs := { Regs.reset with err := .keyTooLong }
        answers := s.answers ++ [⟨.okay, none⟩] }) ∧
    (s.regs.err ≠ .none → exec .kdfLabel s = .next { s with answers := s.answers ++ [⟨.okay, none⟩] })

/-- `CLEAR` (43_system_commands.md R190): from every state, the error state included, every register takes its reset value;
what the HOST has pending and has been answered stays. Only the exact word is `CLEAR`. -/
def Obligations.ClearGivesTheResetRegisters : Prop :=
  (∀ w : Word, decode (.write 0x00 (.w w)) = .ok .clear ↔ w = 0x00000005) ∧
  ∀ s : State, exec .clear s = .next { s with
    regs := {
      phase := .idle, err := .none, digestValid := false, keyovf := false, keylen := 0
      keybuf := Vector.replicate 64 0x00, opad := Vector.replicate 64 0x00
      ih := Vector.replicate 8 0x00000000, ibuf := Vector.replicate 64 0x00, ilen := 0
      digest := Vector.replicate 32 0x00 }
    answers := s.answers ++ [⟨.okay, none⟩] }

/-- `ILLEGAL` (30_encoding.md R95; 43_system_commands.md R191): a `CMD` word is illegal exactly when bits 31:8 are not zero or
bits 7:0 are not one of 1 to 5; it raises `IllegalCommand`, or is ignored while `ERR != 0`. -/
def Obligations.IllegalCommandWordsRaise : Prop :=
  (∀ w : Word, decode (.write 0x00 (.w w)) = .ok (.illegal w) ↔
    (w.extractLsb' 8 24 ≠ 0 ∨
      ¬ (1 ≤ (w.extractLsb' 0 8).toNat ∧ (w.extractLsb' 0 8).toNat ≤ 5))) ∧
  ∀ (w : Word) (s : State),
    (s.regs.err = .none → exec (.illegal w) s = .next { s with
      regs := { Regs.reset with err := .illegalCommand }
      answers := s.answers ++ [⟨.okay, none⟩] }) ∧
    (s.regs.err ≠ .none → exec (.illegal w) s = .next { s with answers := s.answers ++ [⟨.okay, none⟩] })

/-- `RD_STATUS` (10_state.md R32; 20_memory.md R63): the word `PHASE + 4*DIGEST_VALID + 8*KEYOVF + 16*ERR + 256*KEYLEN`, in
every state, and no change of any register. -/
def Obligations.ReadStatusReturnsTheFields : Prop :=
  decode (.read 0x04 .word) = .ok .rdStatus ∧
  ∀ s : State, ∃ v : Word,
    v.toNat = s.regs.phase.code.toNat + 4 * s.regs.digestValid.toNat + 8 * s.regs.keyovf.toNat +
      16 * s.regs.err.code.toNat + 256 * s.regs.keylen.toNat ∧
    exec .rdStatus s = .next { s with answers := s.answers ++ [⟨.okay, some v⟩] }

/-- `RD_DIGEST0` to `RD_DIGEST7` (10_state.md R35; 20_memory.md R63): tag byte `4n` in bits 7:0 and so on up to tag byte
`4n+3` in bits 31:24, in every state, and no change of any register. -/
def Obligations.ReadDigestReturnsTheTagBytes : Prop :=
  (∀ n : Fin 8, decode (.read (BitVec.ofNat 6 (0x10 + 4 * n.val)) .word) = .ok (readDigest n)) ∧
  ∀ s : State, ∃ v : Fin 8 → Word,
    (∀ n : Fin 8, (v n).toNat = (s.regs.digest.toList.getD (4 * n.val) 0x00).toNat +
      256 * (s.regs.digest.toList.getD (4 * n.val + 1) 0x00).toNat +
      65536 * (s.regs.digest.toList.getD (4 * n.val + 2) 0x00).toNat +
      16777216 * (s.regs.digest.toList.getD (4 * n.val + 3) 0x00).toNat) ∧
    exec .rdDigest0 s = .next { s with answers := s.answers ++ [⟨.okay, some (v 0)⟩] } ∧
    exec .rdDigest1 s = .next { s with answers := s.answers ++ [⟨.okay, some (v 1)⟩] } ∧
    exec .rdDigest2 s = .next { s with answers := s.answers ++ [⟨.okay, some (v 2)⟩] } ∧
    exec .rdDigest3 s = .next { s with answers := s.answers ++ [⟨.okay, some (v 3)⟩] } ∧
    exec .rdDigest4 s = .next { s with answers := s.answers ++ [⟨.okay, some (v 4)⟩] } ∧
    exec .rdDigest5 s = .next { s with answers := s.answers ++ [⟨.okay, some (v 5)⟩] } ∧
    exec .rdDigest6 s = .next { s with answers := s.answers ++ [⟨.okay, some (v 6)⟩] } ∧
    exec .rdDigest7 s = .next { s with answers := s.answers ++ [⟨.okay, some (v 7)⟩] }

/-! ### Errors, phases and flags over all operations -/

/-- The error state (60_exceptions.md R209): every operation but `CLEAR` leaves every register as it is and is answered
`OKAY`; `STATUS` reads `16 * ERR` and every `DIGESTn` reads 0; `CLEAR` or the hardware reset ends it. -/
def Obligations.ErrorStateIgnoresAllButClear : Prop :=
  ∀ s : State, s.regs.Inv → s.regs.err ≠ .none →
    (∀ i : Instr, i ≠ .clear → ∃ a : Answer, a.resp = .okay ∧
      exec i s = .next { s with answers := s.answers ++ [a] }) ∧
    (∃ v : Word, v.toNat = 16 * s.regs.err.code.toNat ∧
      exec .rdStatus s = .next { s with answers := s.answers ++ [⟨.okay, some v⟩] }) ∧
    (∀ n : Fin 8, exec (readDigest n) s = .next { s with answers := s.answers ++ [⟨.okay, some 0x00000000⟩] }) ∧
    (∃ t, exec .clear s = .next t ∧ t.regs.err = .none) ∧
    (∀ rest, ∃ t, step { s with inbox := .reset :: rest } = .next t ∧ t.regs.err = .none)

/-- Every engine error and its cause, with the order of the checks (60_exceptions.md R201, R211; 42_kdf_controller.md R171):
from `ERR = 0` each code is left by exactly the operations of R201's table in the conditions listed there, where no check that
comes before it has raised another code: `KDF_LABEL` looks at `PHASE` before `KEYOVF`, so it raises `KeyTooLong` only in
`KDF_PATH`. Only the code is recorded. -/
def Obligations.EngineErrorsHaveExactlyTheirCauses : Prop :=
  ∀ (i : Instr) (s t : State), s.regs.err = .none → exec i s = .next t →
    (t.regs.err = .keyTooLong ↔
      s.regs.keyovf = true ∧ (i = .macNew ∨ (i = .kdfLabel ∧ s.regs.phase = .kdfPath))) ∧
    (t.regs.err = .macInstanceReused ↔
      s.regs.phase = .idle ∧ (i = .final ∨ i = .kdfLabel ∨ ∃ d, i = .pushData d)) ∧
    (t.regs.err = .illegalCommand ↔ ∃ w, i = .illegal w) ∧
    (t.regs.err = .sequenceError ↔ i = .kdfLabel ∧ (s.regs.phase = .mac ∨ s.regs.phase = .kdfKey)) ∧
    (t.regs.err ≠ .none → t.regs = { Regs.reset with err := t.regs.err })

/-- Entering an error (60_exceptions.md R203), for every step: it happens only from `ERR = 0`, and then every other register
takes its reset value; a latched code never turns into another. -/
def Obligations.EnteringAnErrorWipesTheCore : Prop :=
  ∀ s s' : State, step s = .next s' → s'.regs.err ≠ .none →
    (s.regs.err = .none → s'.regs = { Regs.reset with err := s'.regs.err }) ∧
    (s.regs.err ≠ .none → s'.regs = s.regs)

/-- The phase machine (42_kdf_controller.md R176), every operation in every phase, `ERR = 0`: the next `PHASE` and the error
raised. -/
def Obligations.PhaseTransitionsAreThoseOfTheTable : Prop :=
  ∀ (i : Instr) (s t : State), s.regs.err = .none → exec i s = .next t →
    (t.regs.phase, t.regs.err) =
      match i, s.regs.phase, s.regs.keyovf with
      | .pushKey _, p, _ => (p, .none)
      | .macNew, _, false => (.mac, .none)
      | .macNew, _, true => (.idle, .keyTooLong)
      | .kdfStart, _, _ => (.kdfPath, .none)
      | .kdfLabel, .idle, _ => (.idle, .macInstanceReused)
      | .kdfLabel, .mac, _ => (.idle, .sequenceError)
      | .kdfLabel, .kdfPath, false => (.kdfPath, .none)
      | .kdfLabel, .kdfPath, true => (.idle, .keyTooLong)
      | .kdfLabel, .kdfKey, _ => (.idle, .sequenceError)
      | .pushData _, .idle, _ => (.idle, .macInstanceReused)
      | .pushData _, .mac, _ => (.mac, .none)
      | .pushData _, .kdfPath, _ => (.kdfKey, .none)
      | .pushData _, .kdfKey, _ => (.kdfKey, .none)
      | .final, .idle, _ => (.idle, .macInstanceReused)
      | .final, .mac, _ => (.idle, .none)
      | .final, .kdfPath, _ => (.idle, .none)
      | .final, .kdfKey, _ => (.idle, .none)
      | .clear, _, _ => (.idle, .none)
      | .illegal _, _, _ => (.idle, .illegalCommand)
      | .rdStatus, p, _ => (p, .none)
      | .rdDigest0, p, _ => (p, .none)
      | .rdDigest1, p, _ => (p, .none)
      | .rdDigest2, p, _ => (p, .none)
      | .rdDigest3, p, _ => (p, .none)
      | .rdDigest4, p, _ => (p, .none)
      | .rdDigest5, p, _ => (p, .none)
      | .rdDigest6, p, _ => (p, .none)
      | .rdDigest7, p, _ => (p, .none)

/-- `DIGEST_VALID` (10_state.md R25): set by a `FINAL` that consumes an instance; kept, with the tag, by key pushes and reads
only; cleared, and `DIGEST` zeroed, by everything else. -/
def Obligations.TagLivesUntilTheNextConstruction : Prop :=
  ∀ (i : Instr) (s t : State), s.regs.Inv → exec i s = .next t →
    (t.regs.digestValid = true ↔
      (i = .final ∧ s.regs.err = .none ∧ s.regs.phase ≠ .idle) ∨
      (s.regs.digestValid = true ∧ ((∃ d, i = .pushKey d) ∨ i = .rdStatus ∨ ∃ n, i = readDigest n))) ∧
    (s.regs.digestValid = true → t.regs.digestValid = true → t.regs.digest = s.regs.digest) ∧
    (t.regs.digestValid = false → t.regs.digest = Vector.replicate 32 0x00)

/-- `KEYOVF` (10_state.md R26): set by a push that offers a byte beyond the 64th, kept by data pushes, `FINAL` and reads,
cleared by every constructing command, by `CLEAR` and by any error. -/
def Obligations.OverflowLivesUntilTheNextConstruction : Prop :=
  ∀ (i : Instr) (s t : State), s.regs.Inv → s.regs.err = .none → exec i s = .next t →
    (t.regs.keyovf = true ↔ t.regs.err = .none ∧
      ((∃ d, i = .pushKey d ∧ 64 < s.regs.keylen.toNat + d.size.bytes) ∨
        (s.regs.keyovf = true ∧ i ≠ .macNew ∧ i ≠ .kdfStart ∧ i ≠ .kdfLabel ∧ i ≠ .clear)))

/-- The output lines are the status bits they copy (10_state.md R39): `done` is `STATUS[2]`, `err` is `STATUS[7:4] != 0`. -/
def Obligations.OutputLinesCopyStatusBits : Prop :=
  ∀ r : Regs, doneLine r = (statusWord r).getLsbD 2 ∧
    (errLine r = true ↔ (statusWord r).extractLsb' 4 4 ≠ 0)

/-- A driver's test (70_reset_and_hazards.md R234): `STATUS[7:0] = 0x04` says exactly that `PHASE = IDLE`, `DIGEST_VALID = 1`,
`KEYOVF = 0` and `ERR = 0`; `0x0C` is the same with `KEYOVF = 1`. -/
def Obligations.SuccessIsStatusFour : Prop :=
  ∀ r : Regs,
    (tagTrusted r = true ↔
      r.phase = .idle ∧ r.digestValid = true ∧ r.keyovf = false ∧ r.err = .none) ∧
    ((statusWord r).extractLsb' 0 8 = 0x0C ↔
      r.phase = .idle ∧ r.digestValid = true ∧ r.keyovf = true ∧ r.err = .none)

/-! ### Secrets -/

/-- Secrets have no read path (10_state.md R36, R38). Two COREs that look alike to the HOST and are given the same inputs,
none of them `FINAL`, give the same answers and look alike afterwards, whatever `KEYBUF`, `OPAD`, `IH`, `IBUF` and `ILEN`
hold in each. -/
def Obligations.HiddenRegistersHaveNoReadPath : Prop :=
  ∀ (n : Nat) (s₁ s₂ : State),
    s₁.regs.hostView = s₂.regs.hostView → s₁.inbox = s₂.inbox → s₁.answers = s₂.answers →
    s₁.interruptions = s₂.interruptions → (∀ e ∈ s₁.inbox, e.isFinal = false) →
    ∃ t₁ t₂, Host.Core.run Sys2Proof.core n s₁ = .next t₁ ∧ Host.Core.run Sys2Proof.core n s₂ = .next t₂ ∧
      State.answers t₁ = State.answers t₂ ∧ (State.regs t₁).hostView = (State.regs t₂).hostView

/-! ### What sequences of operations compute -/

/-- Chunking (41_mac_engine.md R145; 30_encoding.md R94): pushes that deliver the same bytes leave the same registers, however
the bytes are split, on either port and from any state. -/
def Obligations.PushGroupingDoesNotMatter : Prop :=
  ∀ (ds es : List WData), pushedBytes ds = pushedBytes es → ∀ s : State,
    (∃ t u, Host.Core.run Sys2Proof.core ds.length (s.issue (ds.map .data)) = .next t ∧
      Host.Core.run Sys2Proof.core es.length (s.issue (es.map .data)) = .next u ∧
      State.regs t = State.regs u) ∧
    (∃ t u, Host.Core.run Sys2Proof.core ds.length (s.issue (ds.map .key)) = .next t ∧
      Host.Core.run Sys2Proof.core es.length (s.issue (es.map .key)) = .next u ∧
      State.regs t = State.regs u)

/-- The key limit (41_mac_engine.md R149 (c); 60_exceptions.md R204): from an empty staging buffer, 64 bytes or fewer are
accepted by `MAC_NEW`, 65 or more raise `KeyTooLong`. -/
def Obligations.KeysOverSixtyFourBytesAreRefused : Prop :=
  ∀ (ks : List WData) (s : State), s.regs.Inv → s.regs.err = .none → s.regs.keylen = 0 →
    ∃ t, Host.Core.run Sys2Proof.core (ks.length + 1) (s.issue (ks.map .key ++ [.cmd .macNew])) = .next t ∧
      (State.regs t).err = (if (pushedBytes ks).length ≤ 64 then .none else .keyTooLong) ∧
      (State.regs t).phase = (if (pushedBytes ks).length ≤ 64 then .mac else .idle)

/-- The script `MAC(k, m)` (41_mac_engine.md R148; 30_encoding.md R98): from any state with `ERR = 0` and an empty staging
buffer, with whatever split of the key and of the message into pushes, the tag is `MAC(k, m)`, and its last eight reads
return the bytes of that tag. -/
def Obligations.MacScriptComputesTheMac : Prop :=
  ∀ (ks ds : List WData) (s : State),
    s.regs.Inv → s.regs.err = .none → s.regs.keylen = 0 → s.regs.keyovf = false →
    (pushedBytes ks).length ≤ 64 → (pushedBytes ds).length < 2 ^ 61 - 64 →
    ∃ (t : State) (v : Vector Byte 32) (before : List Answer) (ws : List Word),
      Host.Core.run Sys2Proof.core (macLines ks ds ++ tagLines).length (s.issue (macLines ks ds ++ tagLines)) =
        .next t ∧
      mac (pushedBytes ks) (pushedBytes ds) = some v ∧
      t.regs.err = .none ∧ t.regs.phase = .idle ∧ t.regs.digestValid = true ∧ t.regs.digest = v ∧
      t.answers = before ++ ws.map (fun w => ⟨.okay, some w⟩) ∧ ws.length = 8 ∧ unpackWords ws = v.toList

/-- The script `KDF(key, path)` (42_kdf_controller.md R174; 00_scope.md R11; 30_encoding.md R98): from any state with
`ERR = 0`, whatever is staged, with labels of at most 64 bytes and any split into pushes, the tag is `KDF(key, path)`, and
its last eight reads return the bytes of that tag. -/
def Obligations.KdfScriptComputesTheKdf : Prop :=
  ∀ (ps : List (List WData)) (ds : List WData) (s : State),
    s.regs.err = .none → (∀ p ∈ ps, (pushedBytes p).length ≤ 64) → (pushedBytes ds).length < 2 ^ 61 - 96 →
    ∃ (t : State) (v : Vector Byte 32) (before : List Answer) (ws : List Word),
      Host.Core.run Sys2Proof.core (kdfLines ps ds ++ tagLines).length (s.issue (kdfLines ps ds ++ tagLines)) =
        .next t ∧
      kdf (pushedBytes ds) (ps.map pushedBytes) = some v ∧
      t.regs.err = .none ∧ t.regs.phase = .idle ∧ t.regs.digestValid = true ∧ t.regs.digest = v ∧
      t.answers = before ++ ws.map (fun w => ⟨.okay, some w⟩) ∧ ws.length = 8 ∧ unpackWords ws = v.toList

/-- `KDF_START` is `MAC_NEW` with `DOMAIN` staged, but for `PHASE` (42_kdf_controller.md R175, row "empty path"). -/
def Obligations.KdfStartIsMacNewUnderDomain : Prop :=
  ∀ (ks : List WData) (s : State),
    s.regs.Inv → s.regs.err = .none → s.regs.keylen = 0 → s.regs.keyovf = false → pushedBytes ks = domain →
    ∃ t u, Host.Core.run Sys2Proof.core (ks.length + 1) (s.issue (ks.map .key ++ [.cmd .macNew])) = .next t ∧
      exec .kdfStart s = .next u ∧ State.regs t = { u.regs with phase := .mac }

/-- The registers represent a machine over byte strings (10_state.md R28 to R31; 00_scope.md R10): every operation does to the
registers what the abstract machine does to the staged bytes, to the key and message of the live instance, and to the tag. -/
def Obligations.RegistersRefineTheAbstractMachine : Prop :=
  Represents Abstract.reset State.reset.regs ∧
  ∀ (a : Abstract) (i : Instr) (s : State), Represents a s.regs →
    ∃ t, exec i s = .next t ∧ Represents (a.perform i) t.regs

/-- Trailing zero bytes of a key are invisible (41_mac_engine.md R149 (a); 70_reset_and_hazards.md R243). -/
def Obligations.TrailingZerosOfAKeyAreInvisible : Prop :=
  ∀ (k m : List Byte) (j : Nat), k.length + j ≤ 64 → mac (k ++ List.replicate j 0x00) m = mac k m

/-! ### The hash -/

/-- The incremental law (40_hash_primitive.md R114). -/
def Obligations.AbsorbingInPiecesIsAbsorbingAtOnce : Prop :=
  ∀ (s : HashState) (as bs : List Byte), absorb (absorb s as) bs = absorb s (as ++ bs)

/-- The byte-by-byte hash with its partial block is SHA-256 of the padded message (40_hash_primitive.md R121, R113). -/
def Obligations.HashIsSha256OfTheMessage : Prop :=
  ∀ m : List Byte, m.length < 2 ^ 61 → hashOf m = sha256 m

/-! ### The platform -/

/-- A request reaches a CORE exactly when its address lies in the CORE's window, at the offset from `BASE`, behind what that
CORE has pending; every other CORE is untouched (00_scope.md R5, R9; 20_memory.md R60, R66). -/
def Obligations.RequestsReachTheirWindow : Prop :=
  ∀ (p : Platform) (q : BusRequest) (n : Nat) (c : Slot), p.slots[n]? = some c →
    ∃ c', (p.deliver q).slots[n]? = some c' ∧
      (c.base ≤ q.addr ∧ q.addr < c.base + 64 → ∃ t : Transaction,
        t.off.toNat = q.addr - c.base ∧
        (∀ a z, q = .read a z → t = .read t.off z) ∧ (∀ a d, q = .write a d → t = .write t.off d) ∧
        c' = { c with core := { c.core with inbox := c.core.inbox ++ [.access t] } }) ∧
      (¬ (c.base ≤ q.addr ∧ q.addr < c.base + 64) → c' = c)

/-- Distinct COREs share no state: a step of one leaves every other as it is (60_exceptions.md R217). -/
def Obligations.CoresShareNoState : Prop :=
  ∀ (p : Platform) (n m : Nat), m ≠ n → (p.advance n).slots[m]? = p.slots[m]?
end

