-- ==== Sys2Proof/Laws/Hash.lean ====
section
/-! SUPPORT. The laws of the hash primitive: what `Absorb` does to each register of a HashState, block by block and byte by
byte (spec/40_hash_primitive.md R112, R114). -/

namespace Sys2Proof.Machine

@[simp] theorem absorb_nil (s : HashState) : absorb s [] = s := rfl

@[simp] theorem absorb_cons (s : HashState) (b : Byte) (bs : List Byte) :
    absorb s (b :: bs) = absorb (absorbByte s b) bs := rfl

/-- The incremental law (R114). -/
theorem absorb_append (s : HashState) (as bs : List Byte) :
    absorb s (as ++ bs) = absorb (absorb s as) bs := List.foldl_append

/-- Everything one byte does to a HashState (R112). -/
theorem absorbByte_cases (s : HashState) (b : Byte) :
    (s.len.toNat % 64 = 63 ∧
      absorbByte s b = ⟨compress s.h (s.buf.set (s.len.toNat % 64) b (Nat.mod_lt _ (by decide))).toList,
        Vector.replicate 64 0x00, s.len + 1⟩) ∨
    (s.len.toNat % 64 < 63 ∧
      absorbByte s b = ⟨s.h, s.buf.set (s.len.toNat % 64) b (Nat.mod_lt _ (by decide)), s.len + 1⟩) := by
  unfold absorbByte
  by_cases h : s.len.toNat % 64 = 63
  · exact .inl ⟨h, by simp [h]⟩
  · exact .inr ⟨by omega, by simp [h]⟩

@[simp] theorem absorbByte_len (s : HashState) (b : Byte) : (absorbByte s b).len = s.len + 1 := by
  rcases absorbByte_cases s b with ⟨_, h⟩ | ⟨_, h⟩ <;> rw [h]

theorem absorb_len (s : HashState) (bs : List Byte) :
    (absorb s bs).len = s.len + BitVec.ofNat 64 bs.length := by
  induction bs generalizing s with
  | nil => simp
  | cons b bs ih =>
    rw [absorb_cons, ih, absorbByte_len, BitVec.add_assoc]
    congr 1
    apply BitVec.eq_of_toNat_eq
    simp
    omega

/-- The places of the partial block that hold no waiting byte are zero (R112). -/
def HashState.TailZero (s : HashState) : Prop := ∀ i (h : i < 64), s.len.toNat % 64 ≤ i → s.buf[i] = 0x00

theorem succ_toNat_mod (n : BitVec 64) : (n + 1).toNat % 64 = (n.toNat + 1) % 64 := by
  rw [BitVec.toNat_add, show (1 : BitVec 64).toNat = 1 from rfl]
  omega

theorem hashInit_tailZero : hashInit.TailZero := by
  intro i h _
  simp [hashInit]

/-- `Absorb` keeps the tail of the partial block zero (R112). -/
theorem absorbByte_tailZero (s : HashState) (b : Byte) (hs : s.TailZero) : (absorbByte s b).TailZero := by
  intro i hi hle
  rcases absorbByte_cases s b with ⟨_, h⟩ | ⟨hlt, h⟩
  · simp [h]
  · simp only [h, succ_toNat_mod] at hle ⊢
    rw [Nat.add_mod, Nat.mod_eq_of_lt (a := s.len.toNat % 64 + 1 % 64) (by omega)] at hle
    rw [Vector.getElem_set_ne _ _ (by omega)]
    exact hs i hi (by omega)

theorem absorb_tailZero (s : HashState) (bs : List Byte) (hs : s.TailZero) : (absorb s bs).TailZero := by
  induction bs generalizing s with
  | nil => exact hs
  | cons b bs ih => exact ih _ (absorbByte_tailZero s b hs)

/-- Bytes that complete no block: they wait in the buffer, and the chaining value stays (R112). -/
theorem absorb_short (s : HashState) (bs : List Byte) (h : s.len.toNat % 64 + bs.length < 64) :
    (absorb s bs).h = s.h ∧
      ∀ i (hi : i < 64), (absorb s bs).buf[i] =
        if s.len.toNat % 64 ≤ i ∧ i < s.len.toNat % 64 + bs.length then bs.getD (i - s.len.toNat % 64) 0x00
        else s.buf[i] := by
  induction bs generalizing s with
  | nil =>
    refine ⟨rfl, fun i hi => ?_⟩
    rw [if_neg (by simp only [List.length_nil]; omega)]
    rfl
  | cons b bs ih =>
    simp only [List.length_cons] at h
    rcases absorbByte_cases s b with ⟨hf, _⟩ | ⟨hf, hb⟩
    · omega
    · have hm : (absorbByte s b).len.toNat % 64 = s.len.toNat % 64 + 1 := by
        rw [absorbByte_len, succ_toNat_mod, Nat.add_mod]
        omega
      obtain ⟨hh, hbuf⟩ := ih (absorbByte s b) (by omega)
      refine ⟨by rw [absorb_cons, hh, hb], fun i hi => ?_⟩
      rw [absorb_cons, hbuf i hi, hm]
      simp only [hb, Vector.getElem_set, List.length_cons]
      by_cases h1 : s.len.toNat % 64 = i
      · subst h1
        rw [if_neg (by omega), if_pos rfl, if_pos (by omega)]
        simp
      · by_cases h2 : s.len.toNat % 64 + 1 ≤ i ∧ i < s.len.toNat % 64 + 1 + bs.length
        · rw [if_pos h2, if_pos (by omega)]
          obtain ⟨k, hk⟩ : ∃ k, i - s.len.toNat % 64 = k + 1 := ⟨i - s.len.toNat % 64 - 1, by omega⟩
          rw [hk, show i - (s.len.toNat % 64 + 1) = k by omega, List.getD_cons_succ]
        · rw [if_neg h2, if_neg h1, if_neg (by omega)]

/-- A whole block absorbed at a block boundary is compressed once, and nothing waits (R112). -/
theorem absorb_block (s : HashState) (v : Vector Byte 64) (h : s.len.toNat % 64 = 0) :
    absorb s v.toList = ⟨compress s.h v.toList, Vector.replicate 64 0x00, s.len + 64⟩ := by
  have hlen : v.toList.length = 64 := by simp
  have hsplit : v.toList = v.toList.take 63 ++ [v[63]] := by
    conv => lhs; rw [← List.take_append_drop 63 v.toList]
    congr 1
    rw [List.drop_eq_getElem_cons (by omega), List.drop_eq_nil_of_le (by omega)]
    simp
  have h63 : (v.toList.take 63).length = 63 := by simp
  obtain ⟨hh, hbuf⟩ := absorb_short s (v.toList.take 63) (by omega)
  have hl : (absorb s (v.toList.take 63)).len = s.len + 63 := by rw [absorb_len, h63]; rfl
  have hm : (absorb s (v.toList.take 63)).len.toNat % 64 = 63 := by
    rw [hl, BitVec.toNat_add, show (63 : BitVec 64).toNat = 63 from rfl]
    omega
  have hstep : absorb s v.toList = absorbByte (absorb s (v.toList.take 63)) v[63] := by
    conv => lhs; rw [hsplit, absorb_append, absorb_cons, absorb_nil]
  rw [hstep]
  rcases absorbByte_cases (absorb s (v.toList.take 63)) v[63] with ⟨_, hb⟩ | ⟨hf, _⟩
  · have hfull : ((absorb s (v.toList.take 63)).buf.set ((absorb s (v.toList.take 63)).len.toNat % 64) v[63]
        (Nat.mod_lt _ (by decide))) = v := by
      apply Vector.ext
      intro i hi
      simp only [Vector.getElem_set, hm]
      by_cases h3 : 63 = i
      · subst h3; simp
      · rw [if_neg h3, hbuf i hi, h, if_pos (by omega), List.getD_eq_getElem _ _ (by simp; omega)]
        simp
    rw [hb, hh, hfull, hl, BitVec.add_assoc, show (63 : BitVec 64) + 1 = 64 from rfl]
  · omega

/-- The hash of a message given in two parts (R114). -/
theorem hashOf_append (as bs : List Byte) : hashOf (as ++ bs) = digest32 (absorb (absorb hashInit as) bs) := by
  rw [hashOf, absorb_append]

end Sys2Proof.Machine
end

