-- ==== Sys2Proof/Laws/Operands.lean ====
section
/-! SUPPORT. The operand assembly and the status views as numbers: the bytes of a push, `le32`, the fields of `STATUS`
(spec/30_encoding.md R94, spec/00_scope.md R8, spec/10_state.md R32). -/

namespace Sys2Proof.Machine

/-- A push delivers as many bytes as its size (R94). -/
theorem toBytes_length (d : WData) : d.toBytes.length = d.size.bytes := by cases d <;> rfl

theorem size_bytes_pos (d : WData) : 0 < d.size.bytes := by cases d <;> simp [WData.size, Size.bytes]

theorem size_bytes_le (d : WData) : d.size.bytes ≤ 4 := by cases d <;> simp [WData.size, Size.bytes]

/-- Byte `k` of a push is `(wdata >> 8k) & 0xFF` (spec/20_memory.md R64). -/
theorem toBytes_getD (d : WData) (k : Nat) (h : k < d.size.bytes) :
    d.toBytes.getD k 0x00 = BitVec.ofNat 8 (d.toNat / 2 ^ (8 * k)) := by
  cases d with
  | b v =>
    have : k = 0 := by simpa [WData.size, Size.bytes] using h
    subst this
    simp [WData.toBytes, WData.toNat]
  | h v =>
    have : k = 0 ∨ k = 1 := by simp [WData.size, Size.bytes] at h; omega
    rcases this with rfl | rfl <;> apply BitVec.eq_of_toNat_eq <;>
      simp [WData.toBytes, WData.toNat, BitVec.extractLsb'_toNat, Nat.shiftRight_eq_div_pow]
  | w v =>
    have : k = 0 ∨ k = 1 ∨ k = 2 ∨ k = 3 := by simp [WData.size, Size.bytes] at h; omega
    rcases this with rfl | rfl | rfl | rfl <;> apply BitVec.eq_of_toNat_eq <;>
      simp [WData.toBytes, WData.toNat, BitVec.extractLsb'_toNat, Nat.shiftRight_eq_div_pow]

/-- A concatenation as a number. -/
theorem append_toNat {m n : Nat} (x : BitVec m) (y : BitVec n) : (x ++ y).toNat = x.toNat * 2 ^ n + y.toNat := by
  rw [BitVec.toNat_append, ← Nat.shiftLeft_add_eq_or_of_lt y.isLt, Nat.shiftLeft_eq]

/-- `le32` as a number (R8). -/
theorem le32_toNat (b0 b1 b2 b3 : Byte) :
    (le32 b0 b1 b2 b3).toNat = b0.toNat + 256 * b1.toNat + 65536 * b2.toNat + 16777216 * b3.toNat := by
  simp only [le32, append_toNat]
  omega

/-- `STATUS` as a number (R32). -/
theorem statusWord_toNat (r : Regs) :
    (statusWord r).toNat = r.phase.code.toNat + 4 * r.digestValid.toNat + 8 * r.keyovf.toNat +
      16 * r.err.code.toNat + 256 * r.keylen.toNat := by
  simp only [statusWord, append_toNat, BitVec.toNat_ofBool, show (0 : BitVec 17).toNat = 0 from rfl]
  omega

end Sys2Proof.Machine
end

