-- ==== Sys2Proof/Laws/State.lean ====
section
/-! SUPPORT. What each named update of the registers and of the state does to each field, true by unfolding the update once. -/

namespace Sys2Proof.Machine

/-! ### `Regs.setPhase` -/

@[simp] theorem Regs.setPhase_phase (r : Regs) (p : Phase) : (r.setPhase p).phase = p := rfl
@[simp] theorem Regs.setPhase_err (r : Regs) (p : Phase) : (r.setPhase p).err = r.err := rfl
@[simp] theorem Regs.setPhase_digestValid (r : Regs) (p : Phase) : (r.setPhase p).digestValid = r.digestValid := rfl
@[simp] theorem Regs.setPhase_keyovf (r : Regs) (p : Phase) : (r.setPhase p).keyovf = r.keyovf := rfl
@[simp] theorem Regs.setPhase_keylen (r : Regs) (p : Phase) : (r.setPhase p).keylen = r.keylen := rfl
@[simp] theorem Regs.setPhase_keybuf (r : Regs) (p : Phase) : (r.setPhase p).keybuf = r.keybuf := rfl
@[simp] theorem Regs.setPhase_opad (r : Regs) (p : Phase) : (r.setPhase p).opad = r.opad := rfl
@[simp] theorem Regs.setPhase_ih (r : Regs) (p : Phase) : (r.setPhase p).ih = r.ih := rfl
@[simp] theorem Regs.setPhase_ibuf (r : Regs) (p : Phase) : (r.setPhase p).ibuf = r.ibuf := rfl
@[simp] theorem Regs.setPhase_ilen (r : Regs) (p : Phase) : (r.setPhase p).ilen = r.ilen := rfl
@[simp] theorem Regs.setPhase_digest (r : Regs) (p : Phase) : (r.setPhase p).digest = r.digest := rfl
@[simp] theorem Regs.setPhase_inner (r : Regs) (p : Phase) : (r.setPhase p).inner = r.inner := rfl

/-! ### `Regs.setErr` -/

@[simp] theorem Regs.setErr_phase (r : Regs) (e : ErrCode) : (r.setErr e).phase = r.phase := rfl
@[simp] theorem Regs.setErr_err (r : Regs) (e : ErrCode) : (r.setErr e).err = e := rfl
@[simp] theorem Regs.setErr_digestValid (r : Regs) (e : ErrCode) : (r.setErr e).digestValid = r.digestValid := rfl
@[simp] theorem Regs.setErr_keyovf (r : Regs) (e : ErrCode) : (r.setErr e).keyovf = r.keyovf := rfl
@[simp] theorem Regs.setErr_keylen (r : Regs) (e : ErrCode) : (r.setErr e).keylen = r.keylen := rfl
@[simp] theorem Regs.setErr_keybuf (r : Regs) (e : ErrCode) : (r.setErr e).keybuf = r.keybuf := rfl
@[simp] theorem Regs.setErr_opad (r : Regs) (e : ErrCode) : (r.setErr e).opad = r.opad := rfl
@[simp] theorem Regs.setErr_ih (r : Regs) (e : ErrCode) : (r.setErr e).ih = r.ih := rfl
@[simp] theorem Regs.setErr_ibuf (r : Regs) (e : ErrCode) : (r.setErr e).ibuf = r.ibuf := rfl
@[simp] theorem Regs.setErr_ilen (r : Regs) (e : ErrCode) : (r.setErr e).ilen = r.ilen := rfl
@[simp] theorem Regs.setErr_digest (r : Regs) (e : ErrCode) : (r.setErr e).digest = r.digest := rfl
@[simp] theorem Regs.setErr_inner (r : Regs) (e : ErrCode) : (r.setErr e).inner = r.inner := rfl

/-! ### `Regs.setKey` -/

@[simp] theorem Regs.setKey_phase (r : Regs) (k : Vector Byte 64) (n : BitVec 7) : (r.setKey k n).phase = r.phase := rfl
@[simp] theorem Regs.setKey_err (r : Regs) (k : Vector Byte 64) (n : BitVec 7) : (r.setKey k n).err = r.err := rfl
@[simp] theorem Regs.setKey_digestValid (r : Regs) (k : Vector Byte 64) (n : BitVec 7) : (r.setKey k n).digestValid = r.digestValid := rfl
@[simp] theorem Regs.setKey_keyovf (r : Regs) (k : Vector Byte 64) (n : BitVec 7) : (r.setKey k n).keyovf = r.keyovf := rfl
@[simp] theorem Regs.setKey_keylen (r : Regs) (k : Vector Byte 64) (n : BitVec 7) : (r.setKey k n).keylen = n := rfl
@[simp] theorem Regs.setKey_keybuf (r : Regs) (k : Vector Byte 64) (n : BitVec 7) : (r.setKey k n).keybuf = k := rfl
@[simp] theorem Regs.setKey_opad (r : Regs) (k : Vector Byte 64) (n : BitVec 7) : (r.setKey k n).opad = r.opad := rfl
@[simp] theorem Regs.setKey_ih (r : Regs) (k : Vector Byte 64) (n : BitVec 7) : (r.setKey k n).ih = r.ih := rfl
@[simp] theorem Regs.setKey_ibuf (r : Regs) (k : Vector Byte 64) (n : BitVec 7) : (r.setKey k n).ibuf = r.ibuf := rfl
@[simp] theorem Regs.setKey_ilen (r : Regs) (k : Vector Byte 64) (n : BitVec 7) : (r.setKey k n).ilen = r.ilen := rfl
@[simp] theorem Regs.setKey_digest (r : Regs) (k : Vector Byte 64) (n : BitVec 7) : (r.setKey k n).digest = r.digest := rfl
@[simp] theorem Regs.setKey_inner (r : Regs) (k : Vector Byte 64) (n : BitVec 7) : (r.setKey k n).inner = r.inner := rfl

/-! ### `Regs.setKeyovf` -/

@[simp] theorem Regs.setKeyovf_phase (r : Regs) (b : Bool) : (r.setKeyovf b).phase = r.phase := rfl
@[simp] theorem Regs.setKeyovf_err (r : Regs) (b : Bool) : (r.setKeyovf b).err = r.err := rfl
@[simp] theorem Regs.setKeyovf_digestValid (r : Regs) (b : Bool) : (r.setKeyovf b).digestValid = r.digestValid := rfl
@[simp] theorem Regs.setKeyovf_keyovf (r : Regs) (b : Bool) : (r.setKeyovf b).keyovf = b := rfl
@[simp] theorem Regs.setKeyovf_keylen (r : Regs) (b : Bool) : (r.setKeyovf b).keylen = r.keylen := rfl
@[simp] theorem Regs.setKeyovf_keybuf (r : Regs) (b : Bool) : (r.setKeyovf b).keybuf = r.keybuf := rfl
@[simp] theorem Regs.setKeyovf_opad (r : Regs) (b : Bool) : (r.setKeyovf b).opad = r.opad := rfl
@[simp] theorem Regs.setKeyovf_ih (r : Regs) (b : Bool) : (r.setKeyovf b).ih = r.ih := rfl
@[simp] theorem Regs.setKeyovf_ibuf (r : Regs) (b : Bool) : (r.setKeyovf b).ibuf = r.ibuf := rfl
@[simp] theorem Regs.setKeyovf_ilen (r : Regs) (b : Bool) : (r.setKeyovf b).ilen = r.ilen := rfl
@[simp] theorem Regs.setKeyovf_digest (r : Regs) (b : Bool) : (r.setKeyovf b).digest = r.digest := rfl
@[simp] theorem Regs.setKeyovf_inner (r : Regs) (b : Bool) : (r.setKeyovf b).inner = r.inner := rfl

/-! ### `Regs.setOpad` -/

@[simp] theorem Regs.setOpad_phase (r : Regs) (o : Vector Byte 64) : (r.setOpad o).phase = r.phase := rfl
@[simp] theorem Regs.setOpad_err (r : Regs) (o : Vector Byte 64) : (r.setOpad o).err = r.err := rfl
@[simp] theorem Regs.setOpad_digestValid (r : Regs) (o : Vector Byte 64) : (r.setOpad o).digestValid = r.digestValid := rfl
@[simp] theorem Regs.setOpad_keyovf (r : Regs) (o : Vector Byte 64) : (r.setOpad o).keyovf = r.keyovf := rfl
@[simp] theorem Regs.setOpad_keylen (r : Regs) (o : Vector Byte 64) : (r.setOpad o).keylen = r.keylen := rfl
@[simp] theorem Regs.setOpad_keybuf (r : Regs) (o : Vector Byte 64) : (r.setOpad o).keybuf = r.keybuf := rfl
@[simp] theorem Regs.setOpad_opad (r : Regs) (o : Vector Byte 64) : (r.setOpad o).opad = o := rfl
@[simp] theorem Regs.setOpad_ih (r : Regs) (o : Vector Byte 64) : (r.setOpad o).ih = r.ih := rfl
@[simp] theorem Regs.setOpad_ibuf (r : Regs) (o : Vector Byte 64) : (r.setOpad o).ibuf = r.ibuf := rfl
@[simp] theorem Regs.setOpad_ilen (r : Regs) (o : Vector Byte 64) : (r.setOpad o).ilen = r.ilen := rfl
@[simp] theorem Regs.setOpad_digest (r : Regs) (o : Vector Byte 64) : (r.setOpad o).digest = r.digest := rfl
@[simp] theorem Regs.setOpad_inner (r : Regs) (o : Vector Byte 64) : (r.setOpad o).inner = r.inner := rfl

/-! ### `Regs.setDigest` -/

@[simp] theorem Regs.setDigest_phase (r : Regs) (d : Vector Byte 32) (v : Bool) : (r.setDigest d v).phase = r.phase := rfl
@[simp] theorem Regs.setDigest_err (r : Regs) (d : Vector Byte 32) (v : Bool) : (r.setDigest d v).err = r.err := rfl
@[simp] theorem Regs.setDigest_digestValid (r : Regs) (d : Vector Byte 32) (v : Bool) : (r.setDigest d v).digestValid = v := rfl
@[simp] theorem Regs.setDigest_keyovf (r : Regs) (d : Vector Byte 32) (v : Bool) : (r.setDigest d v).keyovf = r.keyovf := rfl
@[simp] theorem Regs.setDigest_keylen (r : Regs) (d : Vector Byte 32) (v : Bool) : (r.setDigest d v).keylen = r.keylen := rfl
@[simp] theorem Regs.setDigest_keybuf (r : Regs) (d : Vector Byte 32) (v : Bool) : (r.setDigest d v).keybuf = r.keybuf := rfl
@[simp] theorem Regs.setDigest_opad (r : Regs) (d : Vector Byte 32) (v : Bool) : (r.setDigest d v).opad = r.opad := rfl
@[simp] theorem Regs.setDigest_ih (r : Regs) (d : Vector Byte 32) (v : Bool) : (r.setDigest d v).ih = r.ih := rfl
@[simp] theorem Regs.setDigest_ibuf (r : Regs) (d : Vector Byte 32) (v : Bool) : (r.setDigest d v).ibuf = r.ibuf := rfl
@[simp] theorem Regs.setDigest_ilen (r : Regs) (d : Vector Byte 32) (v : Bool) : (r.setDigest d v).ilen = r.ilen := rfl
@[simp] theorem Regs.setDigest_digest (r : Regs) (d : Vector Byte 32) (v : Bool) : (r.setDigest d v).digest = d := rfl
@[simp] theorem Regs.setDigest_inner (r : Regs) (d : Vector Byte 32) (v : Bool) : (r.setDigest d v).inner = r.inner := rfl

/-! ### `Regs.setInner` -/

@[simp] theorem Regs.setInner_phase (r : Regs) (x : HashState) : (r.setInner x).phase = r.phase := rfl
@[simp] theorem Regs.setInner_err (r : Regs) (x : HashState) : (r.setInner x).err = r.err := rfl
@[simp] theorem Regs.setInner_digestValid (r : Regs) (x : HashState) : (r.setInner x).digestValid = r.digestValid := rfl
@[simp] theorem Regs.setInner_keyovf (r : Regs) (x : HashState) : (r.setInner x).keyovf = r.keyovf := rfl
@[simp] theorem Regs.setInner_keylen (r : Regs) (x : HashState) : (r.setInner x).keylen = r.keylen := rfl
@[simp] theorem Regs.setInner_keybuf (r : Regs) (x : HashState) : (r.setInner x).keybuf = r.keybuf := rfl
@[simp] theorem Regs.setInner_opad (r : Regs) (x : HashState) : (r.setInner x).opad = r.opad := rfl
@[simp] theorem Regs.setInner_ih (r : Regs) (x : HashState) : (r.setInner x).ih = x.h := rfl
@[simp] theorem Regs.setInner_ibuf (r : Regs) (x : HashState) : (r.setInner x).ibuf = x.buf := rfl
@[simp] theorem Regs.setInner_ilen (r : Regs) (x : HashState) : (r.setInner x).ilen = x.len := rfl
@[simp] theorem Regs.setInner_digest (r : Regs) (x : HashState) : (r.setInner x).digest = r.digest := rfl

/-! ### The inner hash state -/

@[simp] theorem Regs.setInner_inner (r : Regs) (x : HashState) : (r.setInner x).inner = x := rfl
@[simp] theorem Regs.inner_h (r : Regs) : r.inner.h = r.ih := rfl
@[simp] theorem Regs.inner_buf (r : Regs) : r.inner.buf = r.ibuf := rfl
@[simp] theorem Regs.inner_len (r : Regs) : r.inner.len = r.ilen := rfl

/-! ### The reset registers -/

@[simp] theorem Regs.reset_phase : Regs.reset.phase = .idle := rfl
@[simp] theorem Regs.reset_err : Regs.reset.err = .none := rfl
@[simp] theorem Regs.reset_digestValid : Regs.reset.digestValid = false := rfl
@[simp] theorem Regs.reset_keyovf : Regs.reset.keyovf = false := rfl
@[simp] theorem Regs.reset_keylen : Regs.reset.keylen = 0 := rfl
@[simp] theorem Regs.reset_keybuf : Regs.reset.keybuf = Vector.replicate 64 0x00 := rfl
@[simp] theorem Regs.reset_opad : Regs.reset.opad = Vector.replicate 64 0x00 := rfl
@[simp] theorem Regs.reset_ih : Regs.reset.ih = Vector.replicate 8 0x00000000 := rfl
@[simp] theorem Regs.reset_ibuf : Regs.reset.ibuf = Vector.replicate 64 0x00 := rfl
@[simp] theorem Regs.reset_ilen : Regs.reset.ilen = 0 := rfl
@[simp] theorem Regs.reset_digest : Regs.reset.digest = Vector.replicate 32 0x00 := rfl

/-! ### Updates of the state -/

@[simp] theorem State.setRegs_regs (s : State) (r : Regs) : (s.setRegs r).regs = r := rfl
@[simp] theorem State.setRegs_inbox (s : State) (r : Regs) : (s.setRegs r).inbox = s.inbox := rfl
@[simp] theorem State.setRegs_answers (s : State) (r : Regs) : (s.setRegs r).answers = s.answers := rfl
@[simp] theorem State.setRegs_interruptions (s : State) (r : Regs) : (s.setRegs r).interruptions = s.interruptions := rfl

@[simp] theorem State.setInbox_regs (s : State) (l : List HostEvent) : (s.setInbox l).regs = s.regs := rfl
@[simp] theorem State.setInbox_inbox (s : State) (l : List HostEvent) : (s.setInbox l).inbox = l := rfl
@[simp] theorem State.setInbox_answers (s : State) (l : List HostEvent) : (s.setInbox l).answers = s.answers := rfl
@[simp] theorem State.setInbox_interruptions (s : State) (l : List HostEvent) : (s.setInbox l).interruptions = s.interruptions := rfl

@[simp] theorem State.addAnswer_regs (s : State) (a : Answer) : (s.addAnswer a).regs = s.regs := rfl
@[simp] theorem State.addAnswer_inbox (s : State) (a : Answer) : (s.addAnswer a).inbox = s.inbox := rfl
@[simp] theorem State.addAnswer_answers (s : State) (a : Answer) : (s.addAnswer a).answers = s.answers ++ [a] := rfl
@[simp] theorem State.addAnswer_interruptions (s : State) (a : Answer) : (s.addAnswer a).interruptions = s.interruptions := rfl

end Sys2Proof.Machine
end

