-- ==== Sys2Proof/Laws/Ops.lean ====
section
/-! SUPPORT. What each shared operation does, said once: one lemma per register for `ClearKey`, `Construct`, the destruction
of an instance and the error entry, and the closed form of staging key bytes. -/

namespace Sys2Proof.Machine

/-! ### `ClearKey` (spec/41_mac_engine.md R141) -/

@[simp] theorem clearKey_phase (r : Regs) : (clearKey r).phase = r.phase := rfl
@[simp] theorem clearKey_err (r : Regs) : (clearKey r).err = r.err := rfl
@[simp] theorem clearKey_digestValid (r : Regs) : (clearKey r).digestValid = r.digestValid := rfl
@[simp] theorem clearKey_keyovf (r : Regs) : (clearKey r).keyovf = false := rfl
@[simp] theorem clearKey_keylen (r : Regs) : (clearKey r).keylen = 0 := rfl
@[simp] theorem clearKey_keybuf (r : Regs) : (clearKey r).keybuf = Vector.replicate 64 0x00 := rfl
@[simp] theorem clearKey_opad (r : Regs) : (clearKey r).opad = r.opad := rfl
@[simp] theorem clearKey_ih (r : Regs) : (clearKey r).ih = r.ih := rfl
@[simp] theorem clearKey_ibuf (r : Regs) : (clearKey r).ibuf = r.ibuf := rfl
@[simp] theorem clearKey_ilen (r : Regs) : (clearKey r).ilen = r.ilen := rfl
@[simp] theorem clearKey_digest (r : Regs) : (clearKey r).digest = r.digest := rfl
@[simp] theorem clearKey_inner (r : Regs) : (clearKey r).inner = r.inner := rfl

/-! ### `Construct` (spec/41_mac_engine.md R142) -/

@[simp] theorem xorPad_getElem (c : Byte) (kp : Vector Byte 64) (i : Nat) (h : i < 64) :
    (xorPad c kp)[i] = kp[i] ^^^ c := by simp [xorPad]

/-- "the 64 bytes of `ipad` filled one block, which was compressed" (R142). -/
theorem absorb_hashInit_block (v : Vector Byte 64) :
    absorb hashInit v.toList = { h := compress iv v.toList, buf := Vector.replicate 64 0x00, len := 64 } := by
  rw [absorb_block hashInit v (by decide)]
  rfl

/-- After `Construct` the inner hash state is that of the `ipad` block (R142). -/
theorem construct_inner (kp : Vector Byte 64) (r : Regs) :
    (construct kp r).inner = absorb hashInit (xorPad ipadByte kp).toList := rfl

@[simp] theorem construct_phase (kp : Vector Byte 64) (r : Regs) : (construct kp r).phase = r.phase := rfl
@[simp] theorem construct_err (kp : Vector Byte 64) (r : Regs) : (construct kp r).err = r.err := rfl
@[simp] theorem construct_digestValid (kp : Vector Byte 64) (r : Regs) : (construct kp r).digestValid = false := rfl
@[simp] theorem construct_keyovf (kp : Vector Byte 64) (r : Regs) : (construct kp r).keyovf = r.keyovf := rfl
@[simp] theorem construct_keylen (kp : Vector Byte 64) (r : Regs) : (construct kp r).keylen = r.keylen := rfl
@[simp] theorem construct_keybuf (kp : Vector Byte 64) (r : Regs) : (construct kp r).keybuf = r.keybuf := rfl
@[simp] theorem construct_opad (kp : Vector Byte 64) (r : Regs) : (construct kp r).opad = xorPad opadByte kp := rfl
@[simp] theorem construct_ih (kp : Vector Byte 64) (r : Regs) : (construct kp r).ih = compress iv (xorPad ipadByte kp).toList := by
  rw [← Regs.inner_h, construct_inner, absorb_hashInit_block]
@[simp] theorem construct_ibuf (kp : Vector Byte 64) (r : Regs) : (construct kp r).ibuf = Vector.replicate 64 0x00 := by
  rw [← Regs.inner_buf, construct_inner, absorb_hashInit_block]
@[simp] theorem construct_ilen (kp : Vector Byte 64) (r : Regs) : (construct kp r).ilen = 64 := by
  rw [← Regs.inner_len, construct_inner, absorb_hashInit_block]
@[simp] theorem construct_digest (kp : Vector Byte 64) (r : Regs) : (construct kp r).digest = Vector.replicate 32 0x00 := rfl

/-! ### `Finalize` (spec/41_mac_engine.md R146) -/

@[simp] theorem destroyInstance_phase (r : Regs) : (destroyInstance r).phase = r.phase := rfl
@[simp] theorem destroyInstance_err (r : Regs) : (destroyInstance r).err = r.err := rfl
@[simp] theorem destroyInstance_digestValid (r : Regs) : (destroyInstance r).digestValid = r.digestValid := rfl
@[simp] theorem destroyInstance_keyovf (r : Regs) : (destroyInstance r).keyovf = r.keyovf := rfl
@[simp] theorem destroyInstance_keylen (r : Regs) : (destroyInstance r).keylen = r.keylen := rfl
@[simp] theorem destroyInstance_keybuf (r : Regs) : (destroyInstance r).keybuf = r.keybuf := rfl
@[simp] theorem destroyInstance_opad (r : Regs) : (destroyInstance r).opad = Vector.replicate 64 0x00 := rfl
@[simp] theorem destroyInstance_ih (r : Regs) : (destroyInstance r).ih = Vector.replicate 8 0x00000000 := rfl
@[simp] theorem destroyInstance_ibuf (r : Regs) : (destroyInstance r).ibuf = Vector.replicate 64 0x00 := rfl
@[simp] theorem destroyInstance_ilen (r : Regs) : (destroyInstance r).ilen = 0 := rfl
@[simp] theorem destroyInstance_digest (r : Regs) : (destroyInstance r).digest = r.digest := rfl

/-- "outer hash must only ever see `opad || inner_result`, nothing else" (R146). -/
theorem instanceTag_eq (r : Regs) : instanceTag r = hashOf (r.opad.toList ++ (digest32 r.inner).toList) :=
  (hashOf_append _ _).symm

@[simp] theorem finalize_eq (r : Regs) : finalize r = (instanceTag r, destroyInstance r) := rfl

/-! ### The error entry and the gate (spec/60_exceptions.md R203, R209) -/

@[simp] theorem resetState_eq (r : Regs) : resetState r = Regs.reset := rfl

@[simp] theorem leaveError_eq (r : Regs) : leaveError r = Regs.reset := rfl

theorem enterError_eq (e : ErrCode) (r : Regs) : enterError e r = { Regs.reset with err := e } := rfl

@[simp] theorem enterError_phase (e : ErrCode) (r : Regs) : (enterError e r).phase = .idle := rfl
@[simp] theorem enterError_err (e : ErrCode) (r : Regs) : (enterError e r).err = e := rfl
@[simp] theorem enterError_digestValid (e : ErrCode) (r : Regs) : (enterError e r).digestValid = false := rfl
@[simp] theorem enterError_keyovf (e : ErrCode) (r : Regs) : (enterError e r).keyovf = false := rfl
@[simp] theorem enterError_keylen (e : ErrCode) (r : Regs) : (enterError e r).keylen = 0 := rfl
@[simp] theorem enterError_keybuf (e : ErrCode) (r : Regs) : (enterError e r).keybuf = Vector.replicate 64 0x00 := rfl
@[simp] theorem enterError_opad (e : ErrCode) (r : Regs) : (enterError e r).opad = Vector.replicate 64 0x00 := rfl
@[simp] theorem enterError_ih (e : ErrCode) (r : Regs) : (enterError e r).ih = Vector.replicate 8 0x00000000 := rfl
@[simp] theorem enterError_ibuf (e : ErrCode) (r : Regs) : (enterError e r).ibuf = Vector.replicate 64 0x00 := rfl
@[simp] theorem enterError_ilen (e : ErrCode) (r : Regs) : (enterError e r).ilen = 0 := rfl
@[simp] theorem enterError_digest (e : ErrCode) (r : Regs) : (enterError e r).digest = Vector.replicate 32 0x00 := rfl

theorem unlessError_none {f : Regs → Regs} {r : Regs} (h : r.err = .none) : unlessError f r = f r := by
  simp [unlessError, h]

theorem unlessError_err {f : Regs → Regs} {r : Regs} (h : r.err ≠ .none) : unlessError f r = r := by
  simp [unlessError, h]

/-! ### Staging key bytes (spec/41_mac_engine.md R140) -/

@[simp] theorem stageBytes_nil (r : Regs) : stageBytes [] r = r := rfl

@[simp] theorem stageBytes_cons (b : Byte) (bs : List Byte) (r : Regs) :
    stageBytes (b :: bs) r = stageBytes bs (stageByte r b) := rfl

theorem stageBytes_append (as bs : List Byte) (r : Regs) :
    stageBytes (as ++ bs) r = stageBytes bs (stageBytes as r) := List.foldl_append

/-- Everything one staged byte does (R140). -/
theorem stageByte_cases (r : Regs) (b : Byte) :
    (∃ h : r.keylen.toNat < 64, stageByte r b = r.setKey (r.keybuf.set r.keylen.toNat b h) (r.keylen + 1)) ∨
    (64 ≤ r.keylen.toNat ∧ stageByte r b = r.setKeyovf true) := by
  by_cases h : r.keylen.toNat < 64
  · exact .inl ⟨h, by simp [stageByte, h]⟩
  · exact .inr ⟨by omega, by simp [stageByte, h]⟩

@[simp] theorem stageByte_phase (r : Regs) (b : Byte) : (stageByte r b).phase = r.phase := by
  rcases stageByte_cases r b with ⟨_, h⟩ | ⟨_, h⟩ <;> simp [h]

@[simp] theorem stageBytes_phase (bs : List Byte) (r : Regs) : (stageBytes bs r).phase = r.phase := by
  induction bs generalizing r with
  | nil => rfl
  | cons b bs ih => rw [stageBytes_cons, ih, stageByte_phase]

@[simp] theorem stageByte_err (r : Regs) (b : Byte) : (stageByte r b).err = r.err := by
  rcases stageByte_cases r b with ⟨_, h⟩ | ⟨_, h⟩ <;> simp [h]

@[simp] theorem stageBytes_err (bs : List Byte) (r : Regs) : (stageBytes bs r).err = r.err := by
  induction bs generalizing r with
  | nil => rfl
  | cons b bs ih => rw [stageBytes_cons, ih, stageByte_err]

@[simp] theorem stageByte_digestValid (r : Regs) (b : Byte) : (stageByte r b).digestValid = r.digestValid := by
  rcases stageByte_cases r b with ⟨_, h⟩ | ⟨_, h⟩ <;> simp [h]

@[simp] theorem stageBytes_digestValid (bs : List Byte) (r : Regs) : (stageBytes bs r).digestValid = r.digestValid := by
  induction bs generalizing r with
  | nil => rfl
  | cons b bs ih => rw [stageBytes_cons, ih, stageByte_digestValid]

@[simp] theorem stageByte_opad (r : Regs) (b : Byte) : (stageByte r b).opad = r.opad := by
  rcases stageByte_cases r b with ⟨_, h⟩ | ⟨_, h⟩ <;> simp [h]

@[simp] theorem stageBytes_opad (bs : List Byte) (r : Regs) : (stageBytes bs r).opad = r.opad := by
  induction bs generalizing r with
  | nil => rfl
  | cons b bs ih => rw [stageBytes_cons, ih, stageByte_opad]

@[simp] theorem stageByte_ih (r : Regs) (b : Byte) : (stageByte r b).ih = r.ih := by
  rcases stageByte_cases r b with ⟨_, h⟩ | ⟨_, h⟩ <;> simp [h]

@[simp] theorem stageBytes_ih (bs : List Byte) (r : Regs) : (stageBytes bs r).ih = r.ih := by
  induction bs generalizing r with
  | nil => rfl
  | cons b bs ih => rw [stageBytes_cons, ih, stageByte_ih]

@[simp] theorem stageByte_ibuf (r : Regs) (b : Byte) : (stageByte r b).ibuf = r.ibuf := by
  rcases stageByte_cases r b with ⟨_, h⟩ | ⟨_, h⟩ <;> simp [h]

@[simp] theorem stageBytes_ibuf (bs : List Byte) (r : Regs) : (stageBytes bs r).ibuf = r.ibuf := by
  induction bs generalizing r with
  | nil => rfl
  | cons b bs ih => rw [stageBytes_cons, ih, stageByte_ibuf]

@[simp] theorem stageByte_ilen (r : Regs) (b : Byte) : (stageByte r b).ilen = r.ilen := by
  rcases stageByte_cases r b with ⟨_, h⟩ | ⟨_, h⟩ <;> simp [h]

@[simp] theorem stageBytes_ilen (bs : List Byte) (r : Regs) : (stageBytes bs r).ilen = r.ilen := by
  induction bs generalizing r with
  | nil => rfl
  | cons b bs ih => rw [stageBytes_cons, ih, stageByte_ilen]

@[simp] theorem stageByte_digest (r : Regs) (b : Byte) : (stageByte r b).digest = r.digest := by
  rcases stageByte_cases r b with ⟨_, h⟩ | ⟨_, h⟩ <;> simp [h]

@[simp] theorem stageBytes_digest (bs : List Byte) (r : Regs) : (stageBytes bs r).digest = r.digest := by
  induction bs generalizing r with
  | nil => rfl
  | cons b bs ih => rw [stageBytes_cons, ih, stageByte_digest]

/-- The closed form of `PushKey`: the bytes go to the next free places, `KEYLEN` saturates at 64, and bytes beyond 64 are
remembered in `KEYOVF` (R140; spec/40_hash_primitive.md R120). -/
theorem stageBytes_spec (bs : List Byte) (r : Regs) (hk : r.keylen.toNat ≤ 64) :
    (stageBytes bs r).keylen.toNat = min 64 (r.keylen.toNat + bs.length) ∧
    (stageBytes bs r).keyovf = (r.keyovf || decide (64 < r.keylen.toNat + bs.length)) ∧
    ∀ i (hi : i < 64), (stageBytes bs r).keybuf[i] =
      if r.keylen.toNat ≤ i ∧ i < r.keylen.toNat + bs.length then bs.getD (i - r.keylen.toNat) 0x00
      else r.keybuf[i] := by
  induction bs generalizing r with
  | nil =>
    refine ⟨by simp; omega, by simp; omega, fun i hi => ?_⟩
    rw [if_neg (by simp only [List.length_nil]; omega)]
    rfl
  | cons b bs ih =>
    rcases stageByte_cases r b with ⟨hlt, h⟩ | ⟨hge, h⟩
    · have hn : (stageByte r b).keylen.toNat = r.keylen.toNat + 1 := by
        rw [h, Regs.setKey_keylen, BitVec.toNat_add, show (1 : BitVec 7).toNat = 1 from rfl]
        omega
      obtain ⟨h1, h2, h3⟩ := ih (stageByte r b) (by omega)
      refine ⟨?_, ?_, fun i hi => ?_⟩
      · rw [stageBytes_cons, h1, hn, List.length_cons]
        omega
      · rw [stageBytes_cons, h2, hn, List.length_cons, h, Regs.setKey_keyovf]
        congr 2
        simp only [eq_iff_iff]
        omega
      · rw [stageBytes_cons, h3 i hi, hn, List.length_cons]
        simp only [h, Regs.setKey_keybuf, Vector.getElem_set]
        by_cases h4 : r.keylen.toNat = i
        · subst h4
          rw [if_neg (by omega), if_pos rfl, if_pos (by omega)]
          simp
        · by_cases h5 : r.keylen.toNat + 1 ≤ i ∧ i < r.keylen.toNat + 1 + bs.length
          · rw [if_pos h5, if_pos (by omega)]
            obtain ⟨k, hk⟩ : ∃ k, i - r.keylen.toNat = k + 1 := ⟨i - r.keylen.toNat - 1, by omega⟩
            rw [hk, show i - (r.keylen.toNat + 1) = k by omega, List.getD_cons_succ]
          · rw [if_neg h5, if_neg h4, if_neg (by omega)]
    · have hn : (stageByte r b).keylen = r.keylen := by rw [h, Regs.setKeyovf_keylen]
      obtain ⟨h1, h2, h3⟩ := ih (stageByte r b) (by rw [hn]; exact hk)
      refine ⟨?_, ?_, fun i hi => ?_⟩
      · rw [stageBytes_cons, h1, hn, List.length_cons]
        omega
      · rw [stageBytes_cons, h2, hn, List.length_cons, h, Regs.setKeyovf_keyovf, Bool.true_or,
          decide_eq_true (by omega), Bool.or_true]
      · rw [stageBytes_cons, h3 i hi, hn, if_neg (by omega), if_neg (by omega)]
        simp [h]

end Sys2Proof.Machine
end

