-- ==== Sys2Proof/Laws/Exec.lean ====
section
/-! SUPPORT. Everything an operation and a step can do, said once: the registers after an operation, its answer, and the
outcome of a step for each kind of input. -/

namespace Sys2Proof.Machine

/-- The registers after an operation. -/
def regsAfter (i : Instr) (r : Regs) : Regs :=
  match i with
  | .macNew => unlessError macNew r
  | .kdfStart => unlessError kdfStart r
  | .kdfLabel => unlessError kdfLabel r
  | .final => unlessError finalTag r
  | .clear => Regs.reset
  | .pushKey d => unlessError (stageBytes d.toBytes) r
  | .pushData d => unlessError (feedData d.toBytes) r
  | .rdStatus | .rdDigest0 | .rdDigest1 | .rdDigest2 | .rdDigest3 => r
  | .rdDigest4 | .rdDigest5 | .rdDigest6 | .rdDigest7 => r
  | .illegal _ => unlessError (enterError .illegalCommand) r

/-- The answer to an operation. -/
def answerOf (i : Instr) (r : Regs) : Answer :=
  match i with
  | .rdStatus => okayRead (statusWord r)
  | .rdDigest0 => okayRead (digestWord r 0)
  | .rdDigest1 => okayRead (digestWord r 1)
  | .rdDigest2 => okayRead (digestWord r 2)
  | .rdDigest3 => okayRead (digestWord r 3)
  | .rdDigest4 => okayRead (digestWord r 4)
  | .rdDigest5 => okayRead (digestWord r 5)
  | .rdDigest6 => okayRead (digestWord r 6)
  | .rdDigest7 => okayRead (digestWord r 7)
  | .macNew | .kdfStart | .kdfLabel | .final | .clear | .pushKey _ | .pushData _ | .illegal _ => okayWrite

/-- Every operation completes, with one answer, and touches neither the pending inputs nor the model's counter. -/
theorem exec_eq (i : Instr) (s : State) :
    exec i s = .next ((s.setRegs (regsAfter i s.regs)).addAnswer (answerOf i s.regs)) := by
  cases i <;> rfl

/-- The answer to a legal transaction is `OKAY` (spec/20_memory.md R63, R64). -/
theorem answerOf_resp (i : Instr) (r : Regs) : (answerOf i r).resp = .okay := by cases i <;> rfl

/-- A step on a legal transaction. -/
theorem step_legal {s : State} {t : Transaction} {rest : List HostEvent} {i : Instr}
    (h : s.inbox = .access t :: rest) (hd : decode t = .ok i) :
    step s = exec i (s.setInbox rest) := by
  simp [step, h, perform, hd]

/-- A step on an illegal transaction. -/
theorem step_illegal {s : State} {t : Transaction} {rest : List HostEvent} {e : Reject}
    (h : s.inbox = .access t :: rest) (hd : decode t = .error e) :
    step s = .next (busError t (s.setInbox rest)) := by
  simp [step, h, perform, hd]

/-- Everything a step can do: nothing; an operation; an answer `ERROR`; a hardware reset; an interrupting one. -/
theorem step_cases (s : State) :
    (s.inbox = [] ∧ step s = .next s) ∨
    (∃ t rest i, s.inbox = .access t :: rest ∧ decode t = .ok i ∧ step s = .next
      (((s.setInbox rest).setRegs (regsAfter i s.regs)).addAnswer (answerOf i s.regs))) ∨
    (∃ t rest e, s.inbox = .access t :: rest ∧ decode t = .error e ∧
      step s = .next (busError t (s.setInbox rest))) ∨
    (∃ rest, s.inbox = .reset :: rest ∧ step s = .next (hardwareReset (s.setInbox rest))) ∨
    (∃ t rest, s.inbox = .resetDuring t :: rest ∧ step s = .next (interruptedReset (s.setInbox rest))) := by
  match h : s.inbox with
  | [] => exact .inl ⟨rfl, by simp [step, h]⟩
  | .access t :: rest =>
    match hd : decode t with
    | .ok i => exact .inr (.inl ⟨t, rest, i, rfl, hd, by rw [step_legal h hd, exec_eq]; rfl⟩)
    | .error e => exact .inr (.inr (.inl ⟨t, rest, e, rfl, hd, step_illegal h hd⟩))
  | .reset :: rest => exact .inr (.inr (.inr (.inl ⟨rest, rfl, by simp [step, h, perform]⟩)))
  | .resetDuring t :: rest => exact .inr (.inr (.inr (.inr ⟨t, rest, rfl, by simp [step, h, perform]⟩)))

/-- The registers after any step are those after one operation, unchanged, or reset. -/
theorem step_regs {s s' : State} (h : step s = .next s') :
    s'.regs = s.regs ∨ s'.regs = Regs.reset ∨ ∃ i, s'.regs = regsAfter i s.regs := by
  obtain ⟨_, h1⟩ | ⟨t, rest, i, _, _, h1⟩ | ⟨t, rest, e, _, _, h1⟩ | ⟨rest, _, h1⟩ | ⟨t, rest, _, h1⟩ := step_cases s <;>
    rw [h1] at h <;> cases h
  · exact .inl rfl
  · exact .inr (.inr ⟨i, rfl⟩)
  · exact .inl rfl
  · exact .inr (.inl rfl)
  · exact .inr (.inl rfl)

end Sys2Proof.Machine
end

