-- ==== Sys2Proof/Laws/PerInstr.lean ====
section
/-! SUPPORT. Statements made instruction by instruction: the encoding of every operation is a legal transaction of
spec/20_memory.md R62. -/

namespace Sys2Proof.Laws.EncodesLegally

/-- The transaction of an operation is one of the legal ones (R62, R92). -/
def Statement (i : Instr) : Prop := (encode i).Legal

theorem macNew : Statement .macNew := .inl (by decide)
theorem kdfStart : Statement .kdfStart := .inl (by decide)
theorem kdfLabel : Statement .kdfLabel := .inl (by decide)
theorem final : Statement .final := .inl (by decide)
theorem clear : Statement .clear := .inl (by decide)
theorem pushKey (d : WData) : Statement (.pushKey d) := by
  refine .inr (.inr (.inl ⟨rfl, rfl, ?_⟩))
  cases d
  · exact .inl rfl
  · exact .inr (.inl rfl)
  · exact .inr (.inr rfl)
theorem pushData (d : WData) : Statement (.pushData d) := by
  refine .inr (.inr (.inr (.inl ⟨rfl, rfl, ?_⟩)))
  cases d
  · exact .inl rfl
  · exact .inr (.inl rfl)
  · exact .inr (.inr rfl)
theorem rdStatus : Statement .rdStatus := .inr (.inl (by decide))
theorem rdDigest0 : Statement .rdDigest0 := .inr (.inr (.inr (.inr ⟨rfl, ⟨0, rfl⟩, rfl⟩)))
theorem rdDigest1 : Statement .rdDigest1 := .inr (.inr (.inr (.inr ⟨rfl, ⟨1, rfl⟩, rfl⟩)))
theorem rdDigest2 : Statement .rdDigest2 := .inr (.inr (.inr (.inr ⟨rfl, ⟨2, rfl⟩, rfl⟩)))
theorem rdDigest3 : Statement .rdDigest3 := .inr (.inr (.inr (.inr ⟨rfl, ⟨3, rfl⟩, rfl⟩)))
theorem rdDigest4 : Statement .rdDigest4 := .inr (.inr (.inr (.inr ⟨rfl, ⟨4, rfl⟩, rfl⟩)))
theorem rdDigest5 : Statement .rdDigest5 := .inr (.inr (.inr (.inr ⟨rfl, ⟨5, rfl⟩, rfl⟩)))
theorem rdDigest6 : Statement .rdDigest6 := .inr (.inr (.inr (.inr ⟨rfl, ⟨6, rfl⟩, rfl⟩)))
theorem rdDigest7 : Statement .rdDigest7 := .inr (.inr (.inr (.inr ⟨rfl, ⟨7, rfl⟩, rfl⟩)))
theorem illegal (w : Word) : Statement (.illegal w) := .inl ⟨rfl, rfl, rfl⟩

end Sys2Proof.Laws.EncodesLegally
end

