-- ==== Sys2Proof/Laws/Reference.lean ====
section
/-! SUPPORT. How the registers stand to the mathematical form: padded keys, the tag of an instance, the abstract machine's new
instances, and the hash state after a whole message (spec/00_scope.md R8, R10; spec/40_hash_primitive.md R112 to R114). -/

namespace Sys2Proof.Machine

/-- A byte of a padded key (R8). -/
theorem pad64_getElem (k : List Byte) (i : Nat) (h : i < 64) : (pad64 k)[i] = k.getD i 0x00 := by simp [pad64]

/-- The empty key pads to zeros (R8). -/
theorem pad64_nil : pad64 [] = Vector.replicate 64 0x00 := by decide +kernel

/-- Staging more bytes behind the staged string `st`, all 64 places at once (spec/41_mac_engine.md R140). -/
theorem stage_pad (bs st : List Byte) (r : Regs)
    (hl : r.keylen.toNat = min 64 st.length) (ho : r.keyovf = decide (64 < st.length)) (hb : r.keybuf = pad64 (st.take 64)) :
    (stageBytes bs r).keylen.toNat = min 64 (st ++ bs).length ∧
    (stageBytes bs r).keyovf = decide (64 < (st ++ bs).length) ∧
    (stageBytes bs r).keybuf = pad64 ((st ++ bs).take 64) := by
  obtain ⟨h1, h2, h3⟩ := stageBytes_spec bs r (by omega)
  refine ⟨by rw [h1, hl, List.length_append]; omega, ?_, ?_⟩
  · rw [h2, ho, hl, List.length_append]
    by_cases h : 64 < st.length
    · have : 64 < st.length + bs.length := by omega
      simp [h, this]
    · have e : min 64 st.length = st.length := by omega
      simp [h, e]
  · apply Vector.ext
    intro i hi
    rw [h3 i hi, hl, hb, pad64_getElem _ _ hi, pad64_getElem _ _ hi]
    simp only [List.getD_eq_getElem?_getD, List.getElem?_take, hi, if_true]
    by_cases h : st.length ≤ i
    · rw [List.getElem?_append_right h]
      have e : min 64 st.length = st.length := by omega
      rw [e]
      by_cases h4 : i < st.length + bs.length
      · rw [if_pos ⟨h, h4⟩]
      · rw [if_neg (by omega), List.getElem?_eq_none h, List.getElem?_eq_none (by omega)]
    · rw [if_neg (by omega), List.getElem?_append_left (by omega)]

/-- The tag of an instance with key `k` and message `m` is `MAC(k, m)` (R10; spec/41_mac_engine.md R146). -/
theorem instanceTag_mac (r : Regs) (k m : List Byte)
    (h1 : r.opad = xorPad opadByte (pad64 k)) (h2 : r.inner = absorb hashInit ((xorPad ipadByte (pad64 k)).toList ++ m)) :
    instanceTag r = macValue k m := by
  rw [instanceTag_eq, h1, h2]; rfl

/-! ### A new instance of the abstract machine -/

@[simp] theorem Abstract.start_phase (p : Phase) (k m : List Byte) : (Abstract.start p k m).phase = p := rfl
@[simp] theorem Abstract.start_err (p : Phase) (k m : List Byte) : (Abstract.start p k m).err = .none := rfl
@[simp] theorem Abstract.start_staged (p : Phase) (k m : List Byte) : (Abstract.start p k m).staged = [] := rfl
@[simp] theorem Abstract.start_key (p : Phase) (k m : List Byte) : (Abstract.start p k m).key = k := rfl
@[simp] theorem Abstract.start_message (p : Phase) (k m : List Byte) : (Abstract.start p k m).message = m := rfl
@[simp] theorem Abstract.start_tag (p : Phase) (k m : List Byte) : (Abstract.start p k m).tag = none := rfl

/-! ### The hash of a whole message -/

/-- A block given as a list (R112). -/
theorem absorb_list_block (s : HashState) (l : List Byte) (hl : l.length = 64) (h : s.len.toNat % 64 = 0) :
    absorb s l = ⟨compress s.h l, Vector.replicate 64 0x00, s.len + 64⟩ := by
  have := absorb_block s ⟨l.toArray, by simpa using hl⟩ h
  simpa using this

/-- Whole blocks absorbed at a block boundary (R112). -/
theorem absorb_blocks (n : Nat) (s : HashState) (l : List Byte) (hl : l.length = 64 * n) (hn : 0 < n) (h : s.len.toNat % 64 = 0) :
    absorb s l = ⟨compressBlocks n s.h l, Vector.replicate 64 0x00, s.len + BitVec.ofNat 64 (64 * n)⟩ := by
  induction n generalizing s l with
  | zero => omega
  | succ n ih =>
    have e : l = l.take 64 ++ l.drop 64 := (List.take_append_drop 64 l).symm
    have h1 := absorb_list_block s (l.take 64) (by simp; omega) h
    conv => lhs; rw [e]
    rw [absorb_append, h1]
    by_cases h0 : n = 0
    · subst h0
      rw [List.drop_eq_nil_of_le (by omega)]
      rfl
    · rw [ih _ (l.drop 64) (by simp; omega) (by omega) (by simp only [BitVec.toNat_add, show (64 : BitVec 64).toNat = 64 from rfl]; omega)]
      simp only [compressBlocks, HashState.mk.injEq, true_and]
      rw [BitVec.add_assoc]
      congr 1
      apply BitVec.eq_of_toNat_eq
      simp
      omega

/-- Compressing blocks in two parts (R112). -/
theorem compressBlocks_append (a b : Nat) (h : Vector Word 8) (x y : List Byte) (hx : x.length = 64 * a) :
    compressBlocks (a + b) h (x ++ y) = compressBlocks b (compressBlocks a h x) y := by
  induction a generalizing h x with
  | zero => 
    have : x = [] := List.length_eq_zero_iff.mp (by simpa using hx)
    subst this; simp [compressBlocks]
  | succ a ih =>
    rw [show a + 1 + b = (a + b) + 1 by omega]
    simp only [compressBlocks]
    rw [List.take_append_of_le_length (by omega), List.drop_append_of_le_length (by omega)]
    exact ih _ (x.drop 64) (by simp; omega)

/-- The hash state after a whole message: its whole blocks are compressed, and the rest waits (R112, R114). -/
theorem absorb_all (m : List Byte) :
    ∃ b : Vector Byte 64, absorb hashInit m = ⟨compressBlocks (m.length / 64) iv (m.take (64 * (m.length / 64))), b, BitVec.ofNat 64 m.length⟩ ∧
      b.toList.take (m.length % 64) = m.drop (64 * (m.length / 64)) := by
  have hlen : (absorb hashInit m).len = BitVec.ofNat 64 m.length := by rw [absorb_len]; simp [hashInit]
  have e : m = m.take (64 * (m.length / 64)) ++ m.drop (64 * (m.length / 64)) := (List.take_append_drop _ m).symm
  have hb : ∃ S : HashState, absorb hashInit (m.take (64 * (m.length / 64))) = S ∧ S.h = compressBlocks (m.length / 64) iv (m.take (64 * (m.length / 64))) ∧ S.len.toNat % 64 = 0 := by
    refine ⟨_, rfl, ?_⟩
    by_cases h0 : m.length / 64 = 0
    · simp [h0, compressBlocks, hashInit]
    · rw [absorb_blocks (m.length / 64) hashInit _ (by simp; omega) (by omega) rfl]
      refine ⟨rfl, ?_⟩
      simp [hashInit]
  obtain ⟨S, h1, h2, h3⟩ := hb
  have hd : (m.drop (64 * (m.length / 64))).length = m.length % 64 := by simp; omega
  obtain ⟨h4, h5⟩ := absorb_short S (m.drop (64 * (m.length / 64))) (by omega)
  have hA : absorb hashInit m = absorb S (m.drop (64 * (m.length / 64))) := by
    conv => lhs; rw [e]
    rw [absorb_append, h1]
  refine ⟨(absorb hashInit m).buf, ?_, ?_⟩
  · rw [← hlen, ← h2, ← h4, ← hA]
  · rw [hA]
    apply List.ext_getElem
    · simp; omega
    · intro i i1 i2
      rw [List.getElem_take, Vector.getElem_toList, h5 i (by simp at i1; omega)]
      rw [if_pos (by omega), h3, Nat.sub_zero, List.getD_eq_getElem _ _ i2]

end Sys2Proof.Machine
end

