-- ==== Sys2Proof/Laws/Run.lean ====
section
/-! SUPPORT. Runs: every step answers a next state, and a script of legal lines does to the registers what its operations do,
one after the other (spec/70_reset_and_hazards.md R246, spec/20_memory.md R71). -/

namespace Sys2Proof.Machine

/-- Every step answers a next state (R246). -/
theorem step_next (s : State) : ∃ t, step s = .next t := by
  obtain ⟨_, h⟩ | ⟨t, rest, i, _, _, h⟩ | ⟨t, rest, e, _, _, h⟩ | ⟨rest, _, h⟩ | ⟨t, rest, _, h⟩ := step_cases s <;>
    exact ⟨_, h⟩

/-- One step of a run. -/
theorem run_step {s s' : State} (n : Nat) (h : step s = .next s') :
    Host.Core.run Sys2Proof.core (n + 1) s = Host.Core.run Sys2Proof.core n s' := by
  have h' : Sys2Proof.core.step s = .next s' := h
  simp only [Host.Core.run, h']

/-- The registers after operations performed in order. -/
def regsAfterAll (is : List Instr) (r : Regs) : Regs := is.foldl (fun r i => regsAfter i r) r

@[simp] theorem regsAfterAll_nil (r : Regs) : regsAfterAll [] r = r := rfl

@[simp] theorem regsAfterAll_cons (i : Instr) (is : List Instr) (r : Regs) :
    regsAfterAll (i :: is) r = regsAfterAll is (regsAfter i r) := rfl

theorem regsAfterAll_append (is js : List Instr) (r : Regs) :
    regsAfterAll (is ++ js) r = regsAfterAll js (regsAfterAll is r) := List.foldl_append

/-- The answers to operations performed in order. -/
def answersOf : List Instr → Regs → List Answer
  | [], _ => []
  | i :: is, r => answerOf i r :: answersOf is (regsAfter i r)

theorem answersOf_append (is js : List Instr) (r : Regs) :
    answersOf (is ++ js) r = answersOf is r ++ answersOf js (regsAfterAll is r) := by
  induction is generalizing r with
  | nil => rfl
  | cons i is ih => simp [answersOf, ih]

/-- A run over pending transactions that decode to `is` performs exactly `is`, in order. -/
theorem run_transactions (ts : List Transaction) (is : List Instr) (h : ts.map decode = is.map .ok) (s : State)
    (hs : s.inbox = ts.map .access) :
    ∃ t : State, Host.Core.run Sys2Proof.core ts.length s = .next t ∧ t.regs = regsAfterAll is s.regs ∧
      t.answers = s.answers ++ answersOf is s.regs := by
  induction ts generalizing is s with
  | nil =>
    cases is with
    | nil => exact ⟨s, rfl, rfl, (List.append_nil _).symm⟩
    | cons i is => simp at h
  | cons t ts ih =>
    cases is with
    | nil => simp at h
    | cons i is =>
      simp only [List.map_cons, List.cons.injEq] at h hs
      have hstep := step_legal hs h.1
      rw [exec_eq] at hstep
      obtain ⟨u, hu, hr, ha⟩ := ih is h.2 (((s.setInbox (ts.map .access)).setRegs (regsAfter i s.regs)).addAnswer
        (answerOf i s.regs)) rfl
      exact ⟨u, by rw [List.length_cons, run_step _ hstep]; exact hu, hr, by rw [ha]; simp [answersOf]⟩

/-- The operation of a script line other than `bus`. -/
def Line.instr : Line → Option Instr
  | .cmd .macNew => some .macNew
  | .cmd .kdfStart => some .kdfStart
  | .cmd .kdfLabel => some .kdfLabel
  | .cmd .final => some .final
  | .cmd .clear => some .clear
  | .cmdRaw w => some (decodeCmd w)
  | .key d => some (.pushKey d)
  | .data d => some (.pushData d)
  | .rdStatus => some .rdStatus
  | .rdDigest n => some (readDigest n)
  | .bus _ => none

/-- The line's transaction decodes to its operation (spec/30_encoding.md R97). -/
theorem Line.decode_transaction (l : Line) (i : Instr) (h : l.instr = some i) : decode l.transaction = .ok i := by
  cases l with
  | cmd c => cases c <;> cases h <;> rfl
  | cmdRaw w => cases h; rfl
  | key d => cases h; rfl
  | data d => cases h; rfl
  | rdStatus => cases h; rfl
  | rdDigest n => cases h; revert n; decide
  | bus t => cases h

/-- A script of lines whose operations are `is` performs exactly `is`, in order. -/
theorem run_issue (ls : List Line) (is : List Instr) (h : ls.map Line.instr = is.map some) (s : State) :
    ∃ t : State, Host.Core.run Sys2Proof.core ls.length (s.issue ls) = .next t ∧ t.regs = regsAfterAll is s.regs ∧
      t.answers = s.answers ++ answersOf is s.regs := by
  have hd : (ls.map Line.transaction).map decode = is.map .ok := by
    induction ls generalizing is with
    | nil => cases is with
      | nil => rfl
      | cons => simp at h
    | cons l ls ih => cases is with
      | nil => simp at h
      | cons i is =>
        simp only [List.map_cons, List.cons.injEq] at h ⊢
        exact ⟨l.decode_transaction i h.1, ih is h.2⟩
  obtain ⟨t, ht, hr, ha⟩ := run_transactions (ls.map Line.transaction) is hd (s.issue ls) (by
    simp [State.issue, Function.comp_def])
  exact ⟨t, by simpa using ht, hr, ha⟩

/-! ### Sequences of pushes (spec/41_mac_engine.md R145) -/

/-- The bytes of one more push (spec/30_encoding.md R94). -/
theorem pushedBytes_cons (d : WData) (ds : List WData) : pushedBytes (d :: ds) = d.toBytes ++ pushedBytes ds := rfl

/-- A push delivers at least one byte (spec/30_encoding.md R94). -/
theorem toBytes_ne_nil (d : WData) : d.toBytes ≠ [] := by cases d <;> simp [WData.toBytes]

/-- Pushes deliver nothing only if there is none (spec/30_encoding.md R94). -/
theorem pushedBytes_eq_nil {ds : List WData} : pushedBytes ds = [] ↔ ds = [] := by
  cases ds with
  | nil => simp [pushedBytes]
  | cons d ds => simp [pushedBytes_cons, toBytes_ne_nil]

/-- Key pushes stage their bytes as one string (R140, R145). -/
theorem regsAfterAll_pushKeys (ds : List WData) (r : Regs) :
    regsAfterAll (ds.map .pushKey) r = unlessError (stageBytes (pushedBytes ds)) r := by
  by_cases he : r.err = .none
  · induction ds generalizing r with
    | nil => rw [unlessError_none he]; rfl
    | cons d ds ih =>
      have h1 : regsAfter (.pushKey d) r = stageBytes d.toBytes r := unlessError_none he
      rw [List.map_cons, regsAfterAll_cons, h1, ih _ (by simpa using he), unlessError_none (by simpa using he),
        unlessError_none he, pushedBytes_cons, stageBytes_append]
  · rw [unlessError_err he]
    induction ds with
    | nil => rfl
    | cons d ds ih => rw [List.map_cons, regsAfterAll_cons, show regsAfter (.pushKey d) r = r from unlessError_err he, ih]

/-- In the error state data pushes change nothing (spec/60_exceptions.md R209). -/
theorem regsAfterAll_pushData_err (ds : List WData) (r : Regs) (he : r.err ≠ .none) :
    regsAfterAll (ds.map .pushData) r = r := by
  induction ds with
  | nil => rfl
  | cons d ds ih => rw [List.map_cons, regsAfterAll_cons, show regsAfter (.pushData d) r = r from unlessError_err he, ih]

/-- Feeding a live instance raises no error (R144). -/
theorem feedData_err {bs : List Byte} {r : Regs} (he : r.err = .none) (hp : r.phase ≠ .idle) : (feedData bs r).err = .none := by
  simp only [feedData, hp, if_false]; split <;> simp [he]

/-- A live instance stays live while it is fed (R144). -/
theorem feedData_live {bs : List Byte} {r : Regs} (hp : r.phase ≠ .idle) : (feedData bs r).phase ≠ .idle := by
  simp only [feedData, hp, if_false]; split <;> simp [hp]

/-- Feeding two strings is feeding their concatenation (R145). -/
theorem feedData_append (as bs : List Byte) (r : Regs) (hp : r.phase ≠ .idle) :
    feedData bs (feedData as r) = feedData (as ++ bs) r := by
  simp only [feedData, hp, if_false, absorb_append]
  by_cases h : r.phase = .kdfPath
  · simp [h]; rfl
  · simp [h, hp]; rfl

/-- Data pushes feed their bytes as one string (R144, R145). -/
theorem regsAfterAll_pushData (ds : List WData) (r : Regs) (hd : ds ≠ []) :
    regsAfterAll (ds.map .pushData) r = unlessError (feedData (pushedBytes ds)) r := by
  by_cases he : r.err = .none
  · rw [unlessError_none he]
    cases ds with
    | nil => exact absurd rfl hd
    | cons d ds =>
      rw [List.map_cons, regsAfterAll_cons, show regsAfter (.pushData d) r = feedData d.toBytes r from unlessError_none he]
      by_cases hp : r.phase = .idle
      · rw [regsAfterAll_pushData_err]
        · simp [feedData, hp]
        · simp [feedData, hp]
      · clear hd
        induction ds generalizing d r with
        | nil => simp [pushedBytes]
        | cons e es hih =>
          rw [List.map_cons, regsAfterAll_cons, show regsAfter (.pushData e) _ = feedData e.toBytes _ from unlessError_none (feedData_err he hp),
            hih (feedData d.toBytes r) (feedData_err he hp) e (feedData_live hp), feedData_append _ _ _ hp, pushedBytes_cons d]
  · rw [unlessError_err he, regsAfterAll_pushData_err _ _ he]

/-- The operations of key lines. -/
theorem keyLines_instr (ds : List WData) : (ds.map Line.key).map Line.instr = (ds.map Instr.pushKey).map some := by
  simp [Function.comp_def, Line.instr]

/-- The operations of data lines. -/
theorem dataLines_instr (ds : List WData) : (ds.map Line.data).map Line.instr = (ds.map Instr.pushData).map some := by
  simp [Function.comp_def, Line.instr]

end Sys2Proof.Machine
end

