-- ==== Sys2Proof/Tests/Slice0.lean ====
section
/-! SUPPORT. The tests: expected results are those of the spec's own examples and vectors (spec/95_test_vectors.md), of its
encoding table (spec/30_encoding.md R92, R97) and of its error table. Then one witness theorem for each statement with
hypotheses: a concrete state and operands that meet them together. -/

namespace Sys2Proof.Tests

open Sys2Proof Sys2Proof.Machine

set_option Elab.async false

/-! ### Small states -/

/-- A CORE with these registers, nothing pending and nothing answered. -/
def core (r : Regs) : State := { State.reset with regs := r }

/-- The same with one input pending. -/
def coreWith (r : Regs) (e : HostEvent) : State := { core r with inbox := [e] }

/-- `n` zero bytes staged, as `KEY` of `n` zero bytes leaves it. -/
def staged (n : BitVec 7) : Regs := { Regs.reset with keylen := n }

/-- More than 64 zero bytes staged. -/
def overflowed : Regs := { staged 64 with keyovf := true }

/-- A live instance in phase `p` that has absorbed `n` bytes. -/
def live (p : Phase) (n : BitVec 64) : Regs := { Regs.reset with phase := p, ilen := n, ih := iv }

/-- The error state with code `e`. -/
def failed (e : ErrCode) : Regs := { Regs.reset with err := e }

/-- A finished tag with the bytes 0, 1, …, 31. -/
def tagged : Regs := { Regs.reset with digestValid := true, digest := Vector.ofFn fun i => BitVec.ofNat 8 i.val }

/-- The registers after an operation, if it completes. -/
def after (i : Instr) (r : Regs) : Option Regs :=
  match exec i (core r) with
  | .next t => some t.regs
  | .fault _ => none
  | .refused _ => none

/-- `STATUS` after an operation, if it completes. -/
def statusAfter (i : Instr) (r : Regs) : Option Word := (after i r).map statusWord

/-- The data a read answers, if it completes. -/
def readOf (i : Instr) (r : Regs) : Option Word :=
  match exec i (core r) with
  | .next t => (t.answers.getLast?).bind Answer.rdata
  | .fault _ => none
  | .refused _ => none

/-! ### Well-formedness: the one ill-formed kind of term is refused -/

theorem test_wellFormed_refuses_command_words :
    [0x00000001, 0x00000002, 0x00000003, 0x00000004, 0x00000005].map (fun w => (Instr.illegal w).check) =
      List.replicate 5 (some .wordIsACommand) := by decide

theorem test_wellFormed_accepts_illegal_words :
    (Instr.illegal 0x00000000).wellFormed = true ∧ (Instr.illegal 0x00000006).wellFormed = true ∧
      (Instr.illegal 0x00000101).wellFormed = true := by decide

/-! ### Decoding: words written out from R92, every constructor -/

theorem test_decode_command_words :
    decodeTableWord 32 0b00000000000000000000000000000001 = some .macNew ∧
    decodeTableWord 32 0b00000000000000000000000000000010 = some .kdfStart ∧
    decodeTableWord 32 0b00000000000000000000000000000011 = some .kdfLabel ∧
    decodeTableWord 32 0b00000000000000000000000000000100 = some .final ∧
    decodeTableWord 32 0b00000000000000000000000000000101 = some .clear ∧
    decodeTableWord 32 0b00000000000000000000000000000000 = some (.illegal 0x00000000) := by decide

theorem test_decode_offsets :
    decodeTableWord 8 0b001000 = some (.pushKey (.w 0)) ∧ decodeTableWord 8 0b001100 = some (.pushData (.w 0)) ∧
    decodeTableWord 8 0b000100 = some .rdStatus ∧
    decodeTableWord 8 0b010000 = some .rdDigest0 ∧ decodeTableWord 8 0b010100 = some .rdDigest1 ∧
    decodeTableWord 8 0b011000 = some .rdDigest2 ∧ decodeTableWord 8 0b011100 = some .rdDigest3 ∧
    decodeTableWord 8 0b100000 = some .rdDigest4 ∧ decodeTableWord 8 0b100100 = some .rdDigest5 ∧
    decodeTableWord 8 0b101000 = some .rdDigest6 ∧ decodeTableWord 8 0b101100 = some .rdDigest7 := by decide

/-- The three sizes of a push on either port (R92: `size` in {1, 2, 4}). -/
theorem test_decode_push_sizes :
    decode (.write 0x08 (.b 0x79)) = .ok (.pushKey (.b 0x79)) ∧
    decode (.write 0x08 (.h 0x656b)) = .ok (.pushKey (.h 0x656b)) ∧
    decode (.write 0x0C (.b 0x61)) = .ok (.pushData (.b 0x61)) ∧
    decode (.write 0x0C (.w 0x20656854)) = .ok (.pushData (.w 0x20656854)) := by decide

/-- V58: the illegal command words of spec/95_test_vectors.md. -/
theorem test_decode_illegal_words :
    [0x00000000, 0x00000006, 0x000000ff, 0x00000100, 0x00000101, 0x80000001, 0xffffffff].map decodeCmd =
      [.illegal 0x00000000, .illegal 0x00000006, .illegal 0x000000ff, .illegal 0x00000100, .illegal 0x00000101,
        .illegal 0x80000001, .illegal 0xffffffff] := by decide

/-- spec/20_memory.md R65: wrong direction, wrong size, reserved and misaligned offsets. -/
theorem test_decode_rejects :
    decode (.read 0x00 .word) = .error .wrongDirection ∧ decode (.write 0x04 (.w 0)) = .error .wrongDirection ∧
    decode (.read 0x08 .word) = .error .wrongDirection ∧ decode (.write 0x10 (.w 0)) = .error .wrongDirection ∧
    decode (.write 0x00 (.b 1)) = .error .wrongSize ∧ decode (.read 0x04 .half) = .error .wrongSize ∧
    decode (.read 0x10 .byte) = .error .wrongSize ∧ decode (.read 0x30 .word) = .error .noRegister ∧
    decode (.write 0x3F (.b 0)) = .error .noRegister ∧ decode (.write 0x09 (.b 0)) = .error .noRegister ∧
    decode (.read 0x12 .half) = .error .noRegister := by decide

/-- A table word placed with `withFetchWord` runs as the first operation after reset: `cmd FINAL` with no instance (V50). -/
theorem test_withFetchWord_runs :
    ∃ t, step (State.reset.withFetchWord 32 4) = .next t ∧ t.regs = failed .macInstanceReused ∧ t.inbox = [] :=
  ⟨_, rfl, by decide +kernel, rfl⟩

/-! ### The hash -/

/-- spec/40_hash_primitive.md R119: there are 64 round constants, and with the integer part of the cube root of the prime in
front of it each is that cube root, to 32 bits after the point. The primes below 312 are the first 64. -/
theorem test_round_constants :
    let primes := (List.range 312).filter fun p => 1 < p && (List.range p).all fun d => d < 2 || p % d != 0
    primes.length = 64 ∧ roundConstants.length = 64 ∧
      (primes.zip roundConstants).all (fun (p, k) => (List.range 7).any fun r =>
        let x := r * 2 ^ 32 + k.toNat
        x ^ 3 ≤ p * 2 ^ 96 && p * 2 ^ 96 < (x + 1) ^ 3) = true := by decide +kernel

/-- spec/40_hash_primitive.md R118: the same of the initial value, with square roots and the first eight primes. -/
theorem test_initial_value :
    ([2, 3, 5, 7, 11, 13, 17, 19].zip iv.toList).all (fun (p, h) => (List.range 5).any fun r =>
      let x := r * 2 ^ 32 + h.toNat
      x ^ 2 ≤ p * 2 ^ 64 && p * 2 ^ 64 < (x + 1) ^ 2) = true := by decide +kernel

/-- The first and the last constant of R119. -/
theorem test_round_constants_ends :
    roundConstants.head? = some 0x428a2f98 ∧ roundConstants.getLast? = some 0xc67178f2 := by decide +kernel

/-- V2 of spec/95_test_vectors.md: `H("abc")`, first and last four bytes. -/
theorem test_hash_abc :
    (hashOf [0x61, 0x62, 0x63]).toList.take 4 = [0xba, 0x78, 0x16, 0xbf] ∧
    (hashOf [0x61, 0x62, 0x63]).toList.drop 28 = [0xf2, 0x00, 0x15, 0xad] := by decide +kernel

/-! ### The operations -/

/-- V49: `key.h 0x1234` stages `34 12`. -/
theorem test_pushKey_byte_order :
    (after (.pushKey (.h 0x1234)) Regs.reset).map (fun r => r.keybuf.toList.take 3) = some [0x34, 0x12, 0x00] := by
  decide +kernel

/-- V40: a push across the 64-byte limit stores two bytes, drops two and sets `KEYOVF`. -/
theorem test_pushKey_straddles_limit :
    (after (.pushKey (.w 0x04030201)) (staged 62)).map (fun r => (r.keybuf.toList.drop 61, statusWord r)) =
      some ([0x00, 0x01, 0x02], 0x00004008) := by decide +kernel

/-- V49: the pad of the key `34 12`. -/
theorem test_macNew_pad :
    ((after (.pushKey (.h 0x1234)) Regs.reset).bind (after .macNew)).map
      (fun r => (r.opad.toList.take 3, statusWord r)) = some ([0x68, 0x4e, 0x5c], 0x00000001) := by decide +kernel

/-- V41: `KeyTooLong`. -/
theorem test_macNew_too_long : statusAfter .macNew overflowed = some 0x00000010 := by decide +kernel

/-- V51: data with no instance. -/
theorem test_pushData_no_instance : statusAfter (.pushData (.b 0x61)) Regs.reset = some 0x00000020 := by decide +kernel

/-- spec/20_memory.md R67: bytes of a push wait in order, least significant first; `PHASE` moves to `KDF_KEY`. -/
theorem test_pushData_byte_order :
    (after (.pushData (.w 0x64636261)) (live .kdfPath 66)).map
      (fun r => (r.ibuf.toList.take 7, r.ilen, r.phase)) =
      some ([0x00, 0x00, 0x61, 0x62, 0x63, 0x64, 0x00], 70, .kdfKey) := by decide +kernel

/-- V50: `FINAL` with no instance. -/
theorem test_final_no_instance : statusAfter .final Regs.reset = some 0x00000020 := by decide +kernel

/-- V13: the tag of the empty message under the empty key, first and last byte, and `STATUS`. -/
theorem test_final_empty :
    ((after .macNew Regs.reset).bind (after .final)).map
      (fun r => (r.digest[0], r.digest[31], statusWord r)) = some (0xb6, 0xad, 0x00000004) := by decide +kernel

/-- The example of spec/42_kdf_controller.md R170: `OPAD[13]`, `IH[0]`, `IH[7]`, and `STATUS`; the overflow of V43 goes. -/
theorem test_kdfStart_example :
    (after .kdfStart overflowed).map (fun r => (r.opad[13], r.ih[0], r.ih[7], statusWord r)) =
      some (0x1a, 0xf9134751, 0xaa91fab2, 0x00000002) := by decide +kernel

/-- V20 and the example of R171: after an empty label `v_1` waits in `IBUF`, first and last byte. -/
theorem test_kdfLabel_chain :
    ((after .kdfStart Regs.reset).bind (after .kdfLabel)).map
      (fun r => (r.ibuf[0], r.ibuf[31], r.ibuf[32], r.ilen, statusWord r)) =
      some (0x51, 0x10, 0x00, 96, 0x00000002) := by decide +kernel

/-- V53 to V56: the order of the three checks. -/
theorem test_kdfLabel_priorities :
    statusAfter .kdfLabel overflowed = some 0x00000020 ∧
    statusAfter .kdfLabel { overflowed with phase := .mac } = some 0x00000040 ∧
    statusAfter .kdfLabel { overflowed with phase := .kdfKey } = some 0x00000040 ∧
    statusAfter .kdfLabel { overflowed with phase := .kdfPath } = some 0x00000010 := by decide +kernel

/-- `CLEAR` leaves the error state (spec/60_exceptions.md R212) and destroys a tag (spec/43_system_commands.md R190). -/
theorem test_clear :
    after .clear (failed .illegalCommand) = some Regs.reset ∧ after .clear tagged = some Regs.reset := by decide +kernel

/-- V58 and V59: an illegal word raises `IllegalCommand`, and is ignored in the error state. -/
theorem test_illegal :
    statusAfter (.illegal 0x80000001) Regs.reset = some 0x00000030 ∧
    statusAfter (.illegal 0x00000000) (failed .macInstanceReused) = some 0x00000020 := by decide +kernel

/-- V40, V48: `STATUS` words written out there. -/
theorem test_rdStatus :
    readOf .rdStatus overflowed = some 0x00004008 ∧
    readOf .rdStatus { overflowed with phase := .mac } = some 0x00004009 ∧
    readOf .rdStatus { overflowed with digestValid := true } = some 0x0000400c := by decide +kernel

/-- spec/10_state.md R35: `DIGESTn` holds tag byte `4n` in its least significant byte. -/
theorem test_rdDigest :
    [Instr.rdDigest0, .rdDigest1, .rdDigest2, .rdDigest3, .rdDigest4, .rdDigest5, .rdDigest6, .rdDigest7].map
      (fun i => readOf i tagged) =
      [some 0x03020100, some 0x07060504, some 0x0b0a0908, some 0x0f0e0d0c,
        some 0x13121110, some 0x17161514, some 0x1b1a1918, some 0x1f1e1d1c] := by decide +kernel

/-- spec/20_memory.md R65: an illegal read is answered `ERROR` with data 0, and no register changes. -/
theorem test_bus_error :
    step (coreWith tagged (.access (.read 0x08 .word))) =
      .next { core tagged with answers := [⟨.error, some 0x00000000⟩] } := rfl

/-- spec/30_encoding.md R98: `KEY "key"` is one half word and one byte, and `DATA` of 6 bytes is a word and a half word. -/
theorem test_pushesOf :
    pushesOf [0x6b, 0x65, 0x79] = [.h 0x656b, .b 0x79] ∧
    pushesOf [0x54, 0x68, 0x65, 0x20, 0x71, 0x75] = [.w 0x20656854, .h 0x7571] := by decide

/-! ### Witnesses: the hypotheses of each statement can be met -/

/-- A state whose registers meet the invariants. -/
theorem inv_of_checks {r : Regs}
    (h : (r.keylen.toNat ≤ 64 ∧ (∀ i : Fin 64, r.keylen.toNat ≤ i.val → r.keybuf[i] = 0x00) ∧
      (r.keyovf = true → r.keylen = 64)) ∧
      (r.phase = .idle → r.opad = Vector.replicate 64 0x00 ∧ r.ih = Vector.replicate 8 0x00000000 ∧
        r.ibuf = Vector.replicate 64 0x00 ∧ r.ilen = 0) ∧
      (r.phase ≠ .idle → ∀ i : Fin 64, r.ilen.toNat % 64 ≤ i.val → r.ibuf[i] = 0x00) ∧
      (r.digestValid = true → r.phase = .idle ∧ r.err = .none) ∧
      (r.digestValid = false → r.digest = Vector.replicate 32 0x00) ∧
      (r.err ≠ .none → r = { Regs.reset with err := r.err }) ∧ r.err.code.toNat ≤ 4) : r.Inv :=
  ⟨h.1.1, h.1.2.1, h.1.2.2, h.2.1, h.2.2.1, h.2.2.2.1, h.2.2.2.2.1, h.2.2.2.2.2.1, h.2.2.2.2.2.2⟩

theorem inv_staged_62 : (staged 62).Inv := inv_of_checks (by decide +kernel)
theorem inv_staged_64 : (staged 64).Inv := inv_of_checks (by decide +kernel)
theorem inv_overflowed : overflowed.Inv := inv_of_checks (by decide +kernel)
theorem inv_live_mac : (live .mac 64).Inv := inv_of_checks (by decide +kernel)
theorem inv_failed : (failed .sequenceError).Inv := inv_of_checks (by decide +kernel)
theorem inv_tagged : tagged.Inv := inv_of_checks (by decide +kernel)
theorem inv_reset : Regs.reset.Inv := inv_of_checks (by decide +kernel)

theorem witness_EncodedInstructionsDecodeBack :
    (Instr.pushKey (.h 0xffff)).wellFormed = true ∧ (Instr.illegal 0xffffffff).wellFormed = true ∧
      (Instr.illegal 0x00000006).wellFormed = true := by decide

theorem witness_DecodedTransactionsEncodeBack :
    decode (.write 0x0C (.b 0xff)) = .ok (.pushData (.b 0xff)) ∧ decode (.read 0x2C .word) = .ok .rdDigest7 ∧
      decode (.write 0x00 (.w 0x00000006)) = .ok (.illegal 0x00000006) := by decide

theorem witness_StepRunsTheDecodedInstruction :
    (coreWith (live .mac 64) (.access (.write 0x0C (.w 1)))).inbox = [.access (.write 0x0C (.w 1))] ∧
      decode (.write 0x0C (.w 1)) = .ok (.pushData (.w 1)) := by decide +kernel

theorem witness_IllegalTransactionsOnlyAnswerError :
    ¬ (Transaction.read 0x30 .word).Legal ∧ ¬ (Transaction.write 0x04 (.w 0)).Legal ∧
      (coreWith tagged (.access (.read 0x30 .word))).inbox = [.access (.read 0x30 .word)] := by decide +kernel

theorem witness_EveryTransactionIsAnsweredOnce :
    (coreWith (failed .keyTooLong) (.access (.read 0x01 .byte))).inbox = [.access (.read 0x01 .byte)] := by
  decide +kernel

theorem witness_NoInputNoChange : (core tagged).inbox = [] := by decide

theorem witness_HardwareResetWritesEveryRegister :
    (coreWith tagged .reset).inbox = [.reset] ∧ (core Regs.reset).regs = State.reset.regs := by decide +kernel

theorem witness_InterruptedTransactionsLeaveTheResetRegisters :
    (coreWith (live .mac 64) (.resetDuring (.write 0x00 (.w 4)))).inbox = [.resetDuring (.write 0x00 (.w 4))] := by
  decide +kernel

theorem witness_EveryStepKeepsTheInvariants :
    ∃ s s' : State, s.regs.Inv ∧ s.inbox ≠ [] ∧ step s = .next s' :=
  ⟨coreWith (staged 62) (.access (.write 0x08 (.w 0))), _, inv_staged_62, by decide, rfl⟩

/-- At the least and at the greatest byte count the premises allow. -/
theorem witness_LiveInstancesKeepTheirPadBlock :
    (∃ s s' : State, s.regs.phase ≠ .idle ∧ s.regs.HoldsPadBlock ∧ s.regs.ilen.toNat + 4 < 2 ^ 64 ∧ step s = .next s') ∧
    (∃ s : State, s.regs.phase ≠ .idle ∧ s.regs.HoldsPadBlock ∧ s.regs.ilen.toNat = 2 ^ 64 - 5) :=
  ⟨⟨coreWith (live .mac 64) (.access (.write 0x0C (.w 0))), _, by decide, fun _ => by decide, by decide, rfl⟩,
    ⟨core (live .mac (BitVec.ofNat 64 (2 ^ 64 - 5))), by decide, fun _ => by decide, by decide⟩⟩

theorem witness_EveryRunIsAnsweredAndSafe : ∃ s : State, s.inbox ≠ [] ∧ s.regs.Inv :=
  ⟨coreWith tagged .reset, by decide, inv_tagged⟩

theorem witness_PushKeyStagesTheBytes :
    (∀ n ∈ [(0 : BitVec 7), 62, 64], (staged n).keylen.toNat ≤ 64 ∧ (staged n).err = .none) ∧
      (failed .keyTooLong).keylen.toNat ≤ 64 ∧ (failed .keyTooLong).err ≠ .none := by decide +kernel

theorem witness_MacNewBuildsTheInstance :
    ((staged 64).err = .none ∧ (staged 64).keyovf = false) ∧ (overflowed.err = .none ∧ overflowed.keyovf = true) ∧
      (failed .keyTooLong).err ≠ .none := by decide +kernel

/-- The clause about an incomplete block at its bounds: 0 and 59 bytes waiting, four more pushed. -/
theorem witness_PushDataFeedsTheInstance :
    ((live .mac 64).err = .none ∧ (live .mac 64).phase ≠ .idle ∧
      (live .mac 64).ilen.toNat % 64 + (WData.w 0).size.bytes < 64) ∧
    ((live .kdfPath 123).phase ≠ .idle ∧ (live .kdfPath 123).ilen.toNat % 64 + (WData.w 0).size.bytes = 63) ∧
    (Regs.reset.err = .none ∧ Regs.reset.phase = .idle) ∧ (failed .keyTooLong).err ≠ .none := by decide +kernel

theorem witness_FinalPublishesTheTag :
    ((live .kdfKey 100).err = .none ∧ (live .kdfKey 100).phase ≠ .idle) ∧
    (Regs.reset.err = .none ∧ Regs.reset.phase = .idle) ∧ (failed .keyTooLong).err ≠ .none := by decide +kernel

theorem witness_KdfStartBuildsTheDomainInstance :
    overflowed.err = .none ∧ (failed .illegalCommand).err ≠ .none := by decide +kernel

theorem witness_KdfLabelFoldsTheLabel :
    ((live .kdfPath 96).err = .none ∧ (live .kdfPath 96).phase = .kdfPath ∧ (live .kdfPath 96).keyovf = false) ∧
    (overflowed.err = .none ∧ overflowed.phase = .idle) ∧
    ((live .mac 64).err = .none ∧ (live .mac 64).phase = .mac) ∧
    ((live .kdfKey 97).err = .none ∧ (live .kdfKey 97).phase = .kdfKey) ∧
    ({ overflowed with phase := .kdfPath }.err = ErrCode.none ∧ { overflowed with phase := .kdfPath }.keyovf = true) ∧
    (failed .sequenceError).err ≠ .none := by decide +kernel

theorem witness_IllegalCommandWordsRaise :
    (live .mac 64).err = .none ∧ (failed .keyTooLong).err ≠ .none := by decide +kernel

theorem witness_ErrorStateIgnoresAllButClear :
    ∃ s : State, s.regs.Inv ∧ s.regs.err ≠ .none ∧ Instr.pushKey (.b 0) ≠ .clear :=
  ⟨core (failed .sequenceError), inv_failed, by decide, by decide⟩

/-- One witness for each of the four codes. -/
theorem witness_EngineErrorsHaveExactlyTheirCauses :
    (∃ s t : State, s.regs.err = .none ∧ exec .macNew s = .next t ∧ t.regs.err = .keyTooLong) ∧
    (∃ s t : State, s.regs.err = .none ∧ exec .final s = .next t ∧ t.regs.err = .macInstanceReused) ∧
    (∃ s t : State, s.regs.err = .none ∧ exec (.illegal 6) s = .next t ∧ t.regs.err = .illegalCommand) ∧
    (∃ s t : State, s.regs.err = .none ∧ exec .kdfLabel s = .next t ∧ t.regs.err = .sequenceError) :=
  ⟨⟨core overflowed, _, by decide, rfl, by decide +kernel⟩, ⟨core Regs.reset, _, by decide, rfl, by decide +kernel⟩,
    ⟨core Regs.reset, _, by decide, rfl, by decide +kernel⟩,
    ⟨core (live .mac 64), _, by decide, rfl, by decide +kernel⟩⟩

/-- From no error, and from an error already latched. -/
theorem witness_EnteringAnErrorWipesTheCore :
    (∃ s s' : State, step s = .next s' ∧ s'.regs.err ≠ .none ∧ s.regs.err = .none) ∧
    (∃ s s' : State, step s = .next s' ∧ s'.regs.err ≠ .none ∧ s.regs.err ≠ .none ∧ s.inbox ≠ []) :=
  ⟨⟨coreWith tagged (.access (.write 0x00 (.w 4))), _, rfl, by decide +kernel, by decide⟩,
    ⟨coreWith (failed .keyTooLong) (.access (.write 0x00 (.w 4))), _, rfl, by decide +kernel, by decide, by decide⟩⟩

/-- Every phase, with and without an overflow. -/
theorem witness_PhaseTransitionsAreThoseOfTheTable :
    (∀ p ∈ [Phase.idle, .mac, .kdfPath, .kdfKey], (live p 64).err = .none ∧ (live p 64).phase = p ∧
      (live p 64).keyovf = false ∧ { overflowed with phase := p }.err = ErrCode.none ∧
      { overflowed with phase := p }.keyovf = true) ∧
    ∃ t, exec .kdfLabel (core (live .kdfPath 64)) = .next t :=
  ⟨by decide +kernel, _, rfl⟩

theorem witness_TagLivesUntilTheNextConstruction :
    (∃ s t : State, s.regs.Inv ∧ exec .final s = .next t ∧ s.regs.err = .none ∧ s.regs.phase ≠ .idle) ∧
    (∃ s t : State, s.regs.Inv ∧ exec (.pushKey (.b 0)) s = .next t ∧ s.regs.digestValid = true ∧
      t.regs.digestValid = true) ∧
    (∃ s t : State, s.regs.Inv ∧ exec .clear s = .next t ∧ s.regs.digestValid = true ∧ t.regs.digestValid = false) :=
  ⟨⟨core (live .mac 64), _, inv_live_mac, rfl, by decide, by decide⟩,
    ⟨core tagged, _, inv_tagged, rfl, by decide, by decide +kernel⟩,
    ⟨core tagged, _, inv_tagged, rfl, by decide, by decide +kernel⟩⟩

/-- A push that overflows, and an overflow that a read keeps. -/
theorem witness_OverflowLivesUntilTheNextConstruction :
    (∃ s t : State, s.regs.Inv ∧ s.regs.err = .none ∧ exec (.pushKey (.w 0)) s = .next t ∧ t.regs.keyovf = true ∧
      s.regs.keyovf = false) ∧
    (∃ s t : State, s.regs.Inv ∧ s.regs.err = .none ∧ exec .rdStatus s = .next t ∧ s.regs.keyovf = true) :=
  ⟨⟨core (staged 62), _, inv_staged_62, by decide, rfl, by decide +kernel, by decide⟩,
    ⟨core overflowed, _, inv_overflowed, by decide, rfl, by decide⟩⟩

/-- Two different keys of the same length, staged, with a construction and a read pending. -/
theorem witness_HiddenRegistersHaveNoReadPath :
    ∃ s₁ s₂ : State, s₁.regs ≠ s₂.regs ∧ s₁.regs.hostView = s₂.regs.hostView ∧ s₁.inbox = s₂.inbox ∧
      s₁.answers = s₂.answers ∧ s₁.interruptions = s₂.interruptions ∧ s₁.inbox.length = 2 ∧
      ∀ e ∈ s₁.inbox, e.isFinal = false :=
  ⟨{ core { staged 64 with keybuf := Vector.replicate 64 0x41 } with
      inbox := [.access (.write 0x00 (.w 1)), .access (.read 0x04 .word)] },
    { core { staged 64 with keybuf := Vector.replicate 64 0x42 } with
      inbox := [.access (.write 0x00 (.w 1)), .access (.read 0x04 .word)] },
    by decide +kernel, by decide +kernel, rfl, rfl, rfl, rfl, by decide⟩

theorem witness_PushGroupingDoesNotMatter :
    pushedBytes [.w 0x04030201] = pushedBytes [.b 0x01, .h 0x0302, .b 0x04] := by decide

/-- Exactly 64 bytes, and 65. -/
theorem witness_KeysOverSixtyFourBytesAreRefused :
    Regs.reset.Inv ∧ Regs.reset.err = .none ∧ Regs.reset.keylen = 0 ∧
      (pushedBytes (List.replicate 16 (.w 0))).length = 64 ∧
      (pushedBytes (List.replicate 16 (.w 0) ++ [.b 0])).length = 65 :=
  ⟨inv_reset, by decide, by decide, by decide, by decide⟩

/-- A live instance is no obstacle, and the key has exactly 64 bytes. -/
theorem witness_MacScriptComputesTheMac :
    ∃ (ks ds : List WData) (s : State), s.regs.Inv ∧ s.regs.err = .none ∧ s.regs.keylen = 0 ∧ s.regs.keyovf = false ∧
      (pushedBytes ks).length = 64 ∧ (pushedBytes ks).length ≤ 64 ∧ ds ≠ [] ∧
      (pushedBytes ds).length < 2 ^ 61 - 64 :=
  ⟨List.replicate 16 (.w 0x41414141), [.b 0x6d], core (live .mac 64), inv_live_mac, by decide, by decide, by decide,
    by decide, by decide, by decide, by decide⟩

/-- Two labels, one empty and one of exactly 64 bytes. -/
theorem witness_KdfScriptComputesTheKdf :
    ∃ (ps : List (List WData)) (ds : List WData) (s : State), s.regs.err = .none ∧ ps.length = 2 ∧
      (∀ p ∈ ps, (pushedBytes p).length ≤ 64) ∧ (∃ p ∈ ps, (pushedBytes p).length = 64) ∧
      (pushedBytes ds).length < 2 ^ 61 - 96 :=
  ⟨[[], List.replicate 16 (.w 0x41414141)], [.b 0x61], core overflowed, by decide, by decide, by decide, by decide,
    by decide⟩

theorem witness_KdfStartIsMacNewUnderDomain :
    Regs.reset.Inv ∧ Regs.reset.err = .none ∧ Regs.reset.keylen = 0 ∧ Regs.reset.keyovf = false ∧
      pushedBytes [.w 0x73654d56, .w 0x45412073, .w 0x4b204441, .h 0x4644] = domain :=
  ⟨inv_reset, by decide, by decide, by decide, by decide⟩

/-- A live instance under the empty key represents key and message empty. -/
theorem witness_RegistersRefineTheAbstractMachine :
    ∃ (a : Abstract) (s : State), a.phase ≠ .idle ∧ Represents a s.regs :=
  ⟨Abstract.start .mac [] [], core (clearKey ((construct (pad64 []) Regs.reset).setPhase .mac)), by decide,
    rfl, rfl, rfl, rfl, pad64_nil.symm, rfl, by
      rw [Abstract.start_phase, if_neg (by decide), Abstract.start_key, Abstract.start_message, List.append_nil]
      exact construct_inner (pad64 []) Regs.reset, rfl, rfl⟩

/-- At the limit of 64 bytes. -/
theorem witness_TrailingZerosOfAKeyAreInvisible : (List.replicate 62 (0x41 : Byte)).length + 2 ≤ 64 := by decide

theorem witness_HashIsSha256OfTheMessage : (List.replicate 64 (0x61 : Byte)).length < 2 ^ 61 := by decide

/-- Two COREs side by side; the first and the last address of the second window, and the first one after it. -/
theorem witness_RequestsReachTheirWindow :
    let p : Platform := { slots := [⟨1, core Regs.reset⟩, ⟨2, core tagged⟩] }
    p.slots[1]? = some ⟨2, core tagged⟩ ∧ (Slot.mk 2 (core tagged)).base = 128 ∧
      (128 ≤ (BusRequest.read 128 .word).addr ∧ (BusRequest.read 128 .word).addr < 128 + 64) ∧
      (128 ≤ (BusRequest.write 191 (.b 0)).addr ∧ (BusRequest.write 191 (.b 0)).addr < 128 + 64) ∧
      ¬ ((BusRequest.write 192 (.b 0)).addr < 128 + 64) := by decide +kernel

theorem witness_CoresShareNoState : (1 : Nat) ≠ 0 := by decide

end Sys2Proof.Tests
end

section
/-! The family 00_scope.md: what reaches a CORE, and what a CORE does when nothing does. -/

namespace Sys2Proof.Machine

/-- With nothing pending, a step answers the state it was given (spec/00_scope.md R6). -/
theorem step_of_inbox_nil {s : State} (h : s.inbox = []) : step s = .next s := by
  rw [step, h]

/-- Delivery to the platform is delivery to each of its COREs by itself, at the place the CORE has. -/
theorem getElem?_slots_deliver (p : Platform) (q : BusRequest) (n : Nat) :
    (p.deliver q).slots[n]? =
      p.slots[n]?.map fun c => if c.claims q.addr then c.deliver (.access q.transaction) else c :=
  List.getElem?_map

/-- A CORE claims exactly the addresses of the 64 bytes from its `BASE` (spec/00_scope.md R5, spec/20_memory.md R60). -/
theorem Slot.claims_iff (c : Slot) (addr : Nat) :
    c.claims addr = true ↔ c.base ≤ addr ∧ addr < c.base + 64 := by
  rw [Slot.claims, Slot.base, beq_iff_eq]
  omega

@[simp] theorem BusRequest.off_transaction (q : BusRequest) : q.transaction.off = BitVec.ofNat 6 q.addr := by
  cases q <;> rfl

/-- `BASE` is a multiple of 64 (spec/20_memory.md R66), so the low six bits of a claimed address are its offset. -/
theorem BusRequest.toNat_off_transaction {c : Slot} {q : BusRequest}
    (h : c.base ≤ q.addr ∧ q.addr < c.base + 64) : q.transaction.off.toNat = q.addr - c.base := by
  rw [BusRequest.off_transaction, BitVec.toNat_ofNat]
  rw [Slot.base] at h ⊢
  omega

end Sys2Proof.Machine

namespace Sys2Proof.Scope

open Sys2Proof Sys2Proof.Machine

/-- Settles O8: the first equation of the step. -/
theorem noInputNoChange : Obligations.NoInputNoChange :=
  fun _ h => step_of_inbox_nil h

/-- Settles O43: a platform delivers CORE by CORE, and a CORE claims exactly the addresses of its window. The transaction
delivered keeps the request's direction, size and data. -/
theorem requestsReachTheirWindow : Obligations.RequestsReachTheirWindow := by
  intro p q n c hc
  refine ⟨_, by rw [getElem?_slots_deliver, hc, Option.map_some], fun hin => ?_, fun hout => ?_⟩
  · refine ⟨q.transaction, BusRequest.toNat_off_transaction hin, ?_, ?_, if_pos ((c.claims_iff q.addr).mpr hin)⟩
    · rintro a z rfl
      rfl
    · rintro a d rfl
      rfl
  · exact if_neg (mt (c.claims_iff q.addr).mp hout)

end Sys2Proof.Scope
end

section
/-! The family 10_state.md, first part: everything an operation can do to the registers, said once (spec/41_mac_engine.md,
spec/42_kdf_controller.md, spec/43_system_commands.md, spec/60_exceptions.md R201, R209). -/

namespace Sys2Proof.Machine

/-! ### The registers an operation leaves -/

/-- The registers of a new instance in phase `p` with padded key `kp` and first message bytes `m`, nothing staged. -/
def newInstance (p : Phase) (kp : Vector Byte 64) (m : List Byte) : Regs :=
  { Regs.reset with phase := p, opad := xorPad opadByte kp }.setInner
    (absorb hashInit ((xorPad ipadByte kp).toList ++ m))

@[simp] theorem newInstance_phase (p : Phase) (kp : Vector Byte 64) (m : List Byte) :
    (newInstance p kp m).phase = p := rfl
@[simp] theorem newInstance_err (p : Phase) (kp : Vector Byte 64) (m : List Byte) :
    (newInstance p kp m).err = .none := rfl
@[simp] theorem newInstance_digestValid (p : Phase) (kp : Vector Byte 64) (m : List Byte) :
    (newInstance p kp m).digestValid = false := rfl
@[simp] theorem newInstance_keyovf (p : Phase) (kp : Vector Byte 64) (m : List Byte) :
    (newInstance p kp m).keyovf = false := rfl
@[simp] theorem newInstance_keylen (p : Phase) (kp : Vector Byte 64) (m : List Byte) :
    (newInstance p kp m).keylen = 0 := rfl
@[simp] theorem newInstance_keybuf (p : Phase) (kp : Vector Byte 64) (m : List Byte) :
    (newInstance p kp m).keybuf = Vector.replicate 64 0x00 := rfl
@[simp] theorem newInstance_opad (p : Phase) (kp : Vector Byte 64) (m : List Byte) :
    (newInstance p kp m).opad = xorPad opadByte kp := rfl
@[simp] theorem newInstance_inner (p : Phase) (kp : Vector Byte 64) (m : List Byte) :
    (newInstance p kp m).inner = absorb hashInit ((xorPad ipadByte kp).toList ++ m) := rfl
@[simp] theorem newInstance_digest (p : Phase) (kp : Vector Byte 64) (m : List Byte) :
    (newInstance p kp m).digest = Vector.replicate 32 0x00 := rfl

/-- `ILEN` of a new instance: its `ipad` block, and the message. -/
theorem newInstance_ilen (p : Phase) (kp : Vector Byte 64) (m : List Byte) :
    (newInstance p kp m).ilen = BitVec.ofNat 64 (64 + m.length) := by
  rw [← Regs.inner_len, newInstance_inner, absorb_len]
  simp [hashInit]

/-- The registers after a live instance is fed `bs`. -/
def fedInstance (bs : List Byte) (r : Regs) : Regs :=
  (r.setInner (absorb r.inner bs)).setPhase (if r.phase = .kdfPath then .kdfKey else r.phase)

/-- The registers after `FINAL` has consumed a live instance. -/
def consumedInstance (r : Regs) : Regs :=
  ((destroyInstance r).setDigest (instanceTag r) true).setPhase .idle

/-! ### One equation for each way an operation can go -/

/-- More than 64 staged bytes are no key (spec/41_mac_engine.md R143). -/
theorem macNew_of_keyovf {r : Regs} (hk : r.keyovf = true) : macNew r = enterError .keyTooLong r := by
  simp [macNew, hk]

/-- `MAC_NEW` with at most 64 bytes staged (spec/41_mac_engine.md R143). -/
theorem macNew_of_not_keyovf {r : Regs} (he : r.err = .none) (hk : r.keyovf = false) :
    macNew r = newInstance .mac r.keybuf [] := by
  simp [macNew, hk, newInstance, clearKey, construct, Regs.ext_iff, he]

/-- `KDF_START` cannot fail (spec/42_kdf_controller.md R170). -/
theorem kdfStart_eq {r : Regs} (he : r.err = .none) : kdfStart r = newInstance .kdfPath (pad64 domain) [] := by
  simp [kdfStart, newInstance, clearKey, construct, Regs.ext_iff, he]

theorem kdfLabel_of_idle {r : Regs} (hp : r.phase = .idle) : kdfLabel r = enterError .macInstanceReused r :=
  if_pos hp

/-- Once caller data was fed, and in an instance of `MAC_NEW`, a label is out of order (spec/42_kdf_controller.md R171). -/
theorem kdfLabel_of_late {r : Regs} (hp : r.phase = .mac ∨ r.phase = .kdfKey) :
    kdfLabel r = enterError .sequenceError r := by
  have hne : r.phase ≠ .idle := by rcases hp with hp | hp <;> simp [hp]
  rw [kdfLabel, if_neg hne, if_pos hp]

theorem kdfLabel_of_keyovf {r : Regs} (hp : r.phase = .kdfPath) (hk : r.keyovf = true) :
    kdfLabel r = enterError .keyTooLong r := by
  simp [kdfLabel, hp, hk]

/-- `KDF_LABEL` in `KDF_PATH` with at most 64 bytes staged (spec/42_kdf_controller.md R171). -/
theorem kdfLabel_of_kdfPath {r : Regs} (he : r.err = .none) (hp : r.phase = .kdfPath) (hk : r.keyovf = false) :
    kdfLabel r = newInstance .kdfPath r.keybuf (instanceTag r).toList := by
  simp [kdfLabel, hp, hk, newInstance, clearKey, construct_inner, Regs.ext_iff, he, absorb_append]

theorem feedData_of_idle {bs : List Byte} {r : Regs} (hp : r.phase = .idle) :
    feedData bs r = enterError .macInstanceReused r := by
  simp [feedData, hp]

theorem feedData_of_live {bs : List Byte} {r : Regs} (hp : r.phase ≠ .idle) : feedData bs r = fedInstance bs r := by
  simp only [feedData, hp, if_false, fedInstance]
  split
  · rfl
  · rfl

theorem finalTag_of_idle {r : Regs} (hp : r.phase = .idle) : finalTag r = enterError .macInstanceReused r := by
  simp [finalTag, hp]

theorem finalTag_of_live {r : Regs} (hp : r.phase ≠ .idle) : finalTag r = consumedInstance r := by
  simp [finalTag, hp, consumedInstance]

/-! ### Everything an operation can do -/

/-- Operation `i` raises error `e` from registers `r` with `ERR = 0` (spec/60_exceptions.md R201, R211). -/
inductive Raises (r : Regs) : Instr → ErrCode → Prop
  | macNew (hk : r.keyovf = true) : Raises r .macNew .keyTooLong
  | kdfLabel (hp : r.phase = .kdfPath) (hk : r.keyovf = true) : Raises r .kdfLabel .keyTooLong
  | kdfLabelIdle (hp : r.phase = .idle) : Raises r .kdfLabel .macInstanceReused
  | pushData (d : WData) (hp : r.phase = .idle) : Raises r (.pushData d) .macInstanceReused
  | final (hp : r.phase = .idle) : Raises r .final .macInstanceReused
  | kdfLabelLate (hp : r.phase = .mac ∨ r.phase = .kdfKey) : Raises r .kdfLabel .sequenceError
  | illegal (w : Word) : Raises r (.illegal w) .illegalCommand

/-- Operation `i` builds from registers `r` with `ERR = 0` a new instance in phase `p`, with padded key `kp` and first
message bytes `m` (spec/41_mac_engine.md R143, spec/42_kdf_controller.md R170, R171). -/
inductive Builds (r : Regs) : Instr → Phase → Vector Byte 64 → List Byte → Prop
  | macNew (hk : r.keyovf = false) : Builds r .macNew .mac r.keybuf []
  | kdfStart : Builds r .kdfStart .kdfPath (pad64 domain) []
  | kdfLabel (hp : r.phase = .kdfPath) (hk : r.keyovf = false) :
      Builds r .kdfLabel .kdfPath r.keybuf (instanceTag r).toList

/-- Everything an operation `i` can do to registers `r`, with the registers it leaves. -/
inductive Effect (r : Regs) : Instr → Regs → Prop
  | ignored {i : Instr} (he : r.err ≠ .none) (hi : i ≠ .clear) : Effect r i r
  | statusRead : Effect r .rdStatus r
  | digestRead (n : Fin 8) : Effect r (readDigest n) r
  | cleared : Effect r .clear Regs.reset
  | raised {i : Instr} {e : ErrCode} (he : r.err = .none) (hi : Raises r i e) : Effect r i (enterError e r)
  | staged (d : WData) (he : r.err = .none) : Effect r (.pushKey d) (stageBytes d.toBytes r)
  | built {i : Instr} {p : Phase} {kp : Vector Byte 64} {m : List Byte} (he : r.err = .none)
      (hi : Builds r i p kp m) : Effect r i (newInstance p kp m)
  | fed (d : WData) (he : r.err = .none) (hp : r.phase ≠ .idle) : Effect r (.pushData d) (fedInstance d.toBytes r)
  | consumed (he : r.err = .none) (hp : r.phase ≠ .idle) : Effect r .final (consumedInstance r)

/-- A gated operation, from what it does with `ERR = 0` (spec/60_exceptions.md R209). -/
theorem effect_unlessError {i : Instr} {f : Regs → Regs} {r : Regs} (hi : i ≠ .clear)
    (h : r.err = .none → Effect r i (f r)) : Effect r i (unlessError f r) := by
  by_cases he : r.err = .none
  · rw [unlessError_none he]
    exact h he
  · rw [unlessError_err he]
    exact .ignored he hi

theorem effect_macNew {r : Regs} (he : r.err = .none) : Effect r .macNew (macNew r) := by
  cases hk : r.keyovf with
  | true => exact macNew_of_keyovf hk ▸ .raised he (.macNew hk)
  | false => exact macNew_of_not_keyovf he hk ▸ .built he (.macNew hk)

/-- `PHASE` is checked before `KEYOVF` (spec/60_exceptions.md R211, spec/42_kdf_controller.md R171). -/
theorem effect_kdfLabel {r : Regs} (he : r.err = .none) : Effect r .kdfLabel (kdfLabel r) := by
  cases hp : r.phase with
  | idle => exact kdfLabel_of_idle hp ▸ .raised he (.kdfLabelIdle hp)
  | mac => exact kdfLabel_of_late (.inl hp) ▸ .raised he (.kdfLabelLate (.inl hp))
  | kdfKey => exact kdfLabel_of_late (.inr hp) ▸ .raised he (.kdfLabelLate (.inr hp))
  | kdfPath =>
    cases hk : r.keyovf with
    | true => exact kdfLabel_of_keyovf hp hk ▸ .raised he (.kdfLabel hp hk)
    | false => exact kdfLabel_of_kdfPath he hp hk ▸ .built he (.kdfLabel hp hk)

theorem effect_pushData (d : WData) {r : Regs} (he : r.err = .none) :
    Effect r (.pushData d) (feedData d.toBytes r) := by
  by_cases hp : r.phase = .idle
  · exact feedData_of_idle hp ▸ .raised he (.pushData d hp)
  · exact feedData_of_live hp ▸ .fed d he hp

theorem effect_final {r : Regs} (he : r.err = .none) : Effect r .final (finalTag r) := by
  by_cases hp : r.phase = .idle
  · exact finalTag_of_idle hp ▸ .raised he (.final hp)
  · exact finalTag_of_live hp ▸ .consumed he hp

/-- The list is complete: the registers after an operation are those of one of its effects. -/
theorem effect_regsAfter (i : Instr) (r : Regs) : Effect r i (regsAfter i r) := by
  cases i with
  | macNew => exact effect_unlessError (by simp) effect_macNew
  | kdfStart => exact effect_unlessError (by simp) fun he => kdfStart_eq he ▸ .built he .kdfStart
  | kdfLabel => exact effect_unlessError (by simp) effect_kdfLabel
  | final => exact effect_unlessError (by simp) effect_final
  | clear => exact .cleared
  | pushKey d => exact effect_unlessError (by simp) (.staged d)
  | pushData d => exact effect_unlessError (by simp) (effect_pushData d)
  | rdStatus => exact .statusRead
  | rdDigest0 => exact .digestRead 0
  | rdDigest1 => exact .digestRead 1
  | rdDigest2 => exact .digestRead 2
  | rdDigest3 => exact .digestRead 3
  | rdDigest4 => exact .digestRead 4
  | rdDigest5 => exact .digestRead 5
  | rdDigest6 => exact .digestRead 6
  | rdDigest7 => exact .digestRead 7
  | illegal w => exact effect_unlessError (by simp) fun he => .raised he (.illegal w)

/-- What an operation that completes leaves. -/
theorem effect_of_exec {i : Instr} {s t : State} (h : exec i s = .next t) : Effect s.regs i t.regs := by
  rw [exec_eq] at h
  cases h
  exact effect_regsAfter i s.regs

/-- An error raised is one of the four engine errors (spec/60_exceptions.md R201). -/
theorem Raises.ne_none {r : Regs} {i : Instr} {e : ErrCode} (h : Raises r i e) : e ≠ .none := by
  cases h <;> simp

/-- A new instance is live. -/
theorem Builds.ne_idle {r : Regs} {i : Instr} {p : Phase} {kp : Vector Byte 64} {m : List Byte}
    (h : Builds r i p kp m) : p ≠ .idle := by
  cases h <;> simp

/-- A new instance holds no message, or the tag of the one before it (spec/42_kdf_controller.md R171). -/
theorem Builds.length_le {r : Regs} {i : Instr} {p : Phase} {kp : Vector Byte 64} {m : List Byte}
    (h : Builds r i p kp m) : m.length ≤ 32 := by
  cases h <;> simp

/-- A step keeps a property of the registers that reset gives and every effect keeps. -/
theorem step_keeps {P : Regs → Prop} {s s' : State} (h : step s = .next s') (hs : P s.regs) (hr : P Regs.reset)
    (he : ∀ i r', Effect s.regs i r' → P r') : P s'.regs := by
  obtain h | h | ⟨i, h⟩ := step_regs h
  · exact h ▸ hs
  · exact h ▸ hr
  · exact h ▸ he i _ (effect_regsAfter i s.regs)

end Sys2Proof.Machine
end

section
/-! The family 10_state.md, second part: the invariants of spec/10_state.md R37. -/

namespace Sys2Proof.Machine

/-- I8 holds of every value of the type (spec/10_state.md R24). -/
theorem ErrCode.code_le (e : ErrCode) : e.code.toNat ≤ 4 := by cases e <;> decide

/-- The reset registers, and those of every error state (spec/60_exceptions.md R203), meet the invariants. -/
theorem inv_enterError (e : ErrCode) (r : Regs) : (enterError e r).Inv where
  keylen_le := by simp
  keybuf_zero := by simp
  keyovf_full := by simp
  idle_zero := by simp
  ibuf_zero := by simp
  valid_idle := by simp
  invalid_zero := by simp
  err_reset _ := rfl
  err_code := e.code_le

theorem inv_reset : Regs.reset.Inv := inv_enterError .none Regs.reset

/-- I2 is kept because `KEYOVF` comes with a full buffer, I1 because the places beyond `KEYLEN` are not written. -/
theorem inv_stageBytes (bs : List Byte) {r : Regs} (hr : r.Inv) (he : r.err = .none) : (stageBytes bs r).Inv := by
  obtain ⟨hlen, hovf, hbuf⟩ := stageBytes_spec bs r hr.keylen_le
  exact {
    keylen_le := by omega
    keybuf_zero := by
      intro i hi
      have h : (stageBytes bs r).keybuf[i.val] = r.keybuf[i.val] := by rw [hbuf i i.isLt, if_neg (by omega)]
      exact h.trans (hr.keybuf_zero i (by omega))
    keyovf_full := by
      intro h
      rw [hovf, Bool.or_eq_true, decide_eq_true_eq] at h
      have hfull : 64 ≤ r.keylen.toNat + bs.length := by
        rcases h with h | h
        · rw [hr.keyovf_full h]
          exact Nat.le_add_right 64 _
        · omega
      apply BitVec.eq_of_toNat_eq
      rw [hlen]
      exact min_eq_left hfull
    idle_zero := by simpa using hr.idle_zero
    ibuf_zero := by simpa using hr.ibuf_zero
    valid_idle := by simpa using hr.valid_idle
    invalid_zero := by simpa using hr.invalid_zero
    err_reset := by simp [he]
    err_code := ErrCode.code_le _ }

/-- I4, second clause, is the hash's own invariant: no byte waits beyond `ILEN mod 64` (spec/40_hash_primitive.md R112). -/
theorem ibuf_zero_of_tailZero {r : Regs} (h : r.inner.TailZero) :
    ∀ i : Fin 64, r.ilen.toNat % 64 ≤ i.val → r.ibuf[i] = 0x00 :=
  fun i hi => h i i.isLt hi

theorem inv_newInstance {p : Phase} (kp : Vector Byte 64) (m : List Byte) (hp : p ≠ .idle) :
    (newInstance p kp m).Inv where
  keylen_le := by simp
  keybuf_zero := by simp
  keyovf_full := by simp
  idle_zero := by simp [hp]
  ibuf_zero _ := ibuf_zero_of_tailZero (absorb_tailZero _ _ hashInit_tailZero)
  valid_idle := by simp
  invalid_zero := by simp
  err_reset := by simp
  err_code := ErrCode.code_le _

theorem fedInstance_phase_ne_idle (bs : List Byte) {r : Regs} (hp : r.phase ≠ .idle) :
    (fedInstance bs r).phase ≠ .idle := by
  rw [← feedData_of_live hp]
  exact feedData_live hp

theorem inv_fedInstance (bs : List Byte) {r : Regs} (hr : r.Inv) (he : r.err = .none) (hp : r.phase ≠ .idle) :
    (fedInstance bs r).Inv where
  keylen_le := hr.keylen_le
  keybuf_zero := hr.keybuf_zero
  keyovf_full := hr.keyovf_full
  idle_zero h := absurd h (fedInstance_phase_ne_idle bs hp)
  ibuf_zero _ := ibuf_zero_of_tailZero (absorb_tailZero r.inner bs fun i hi => hr.ibuf_zero hp ⟨i, hi⟩)
  valid_idle h := absurd (hr.valid_idle h).1 hp
  invalid_zero := hr.invalid_zero
  err_reset h := absurd he h
  err_code := ErrCode.code_le _

theorem inv_consumedInstance {r : Regs} (hr : r.Inv) (he : r.err = .none) : (consumedInstance r).Inv where
  keylen_le := hr.keylen_le
  keybuf_zero := hr.keybuf_zero
  keyovf_full := hr.keyovf_full
  idle_zero _ := ⟨rfl, rfl, rfl, rfl⟩
  ibuf_zero h := absurd rfl h
  valid_idle _ := ⟨rfl, he⟩
  invalid_zero h := nomatch h
  err_reset h := absurd he h
  err_code := ErrCode.code_le _

/-- Every effect of an operation keeps the invariants (spec/10_state.md R37). -/
theorem Effect.inv {r r' : Regs} {i : Instr} (h : Effect r i r') (hr : r.Inv) : r'.Inv := by
  cases h with
  | ignored | statusRead | digestRead => exact hr
  | cleared => exact inv_reset
  | raised he hi => exact inv_enterError _ r
  | staged d he => exact inv_stageBytes _ hr he
  | built he hi => exact inv_newInstance _ _ hi.ne_idle
  | fed d he hp => exact inv_fedInstance _ hr he hp
  | consumed he hp => exact inv_consumedInstance hr he

/-! ### The byte count of a live instance -/

theorem holdsPadBlock_of_idle {r : Regs} (hp : r.phase = .idle) : r.HoldsPadBlock := fun h => absurd hp h

/-- A new instance has absorbed its `ipad` block (spec/41_mac_engine.md R142). -/
theorem holdsPadBlock_newInstance (p : Phase) (kp : Vector Byte 64) {m : List Byte} (hm : m.length ≤ 32) :
    (newInstance p kp m).HoldsPadBlock := by
  intro _
  rw [newInstance_ilen, BitVec.toNat_ofNat]
  omega

/-- A push adds at most four bytes to a count that does not wrap. -/
theorem holdsPadBlock_fedInstance (d : WData) {r : Regs} (hr : r.HoldsPadBlock) (hp : r.phase ≠ .idle)
    (hw : r.ilen.toNat + 4 < 2 ^ 64) : (fedInstance d.toBytes r).HoldsPadBlock := by
  intro _
  have hlen : (fedInstance d.toBytes r).ilen = r.ilen + BitVec.ofNat 64 d.toBytes.length := absorb_len r.inner d.toBytes
  have hbytes : d.toBytes.length ≤ 4 := toBytes_length d ▸ size_bytes_le d
  have hold := hr hp
  rw [hlen, BitVec.toNat_add, BitVec.toNat_ofNat]
  omega

theorem Effect.holdsPadBlock {r r' : Regs} {i : Instr} (h : Effect r i r') (hr : r.HoldsPadBlock)
    (hw : r.ilen.toNat + 4 < 2 ^ 64) : r'.HoldsPadBlock := by
  cases h with
  | ignored | statusRead | digestRead => exact hr
  | cleared => exact holdsPadBlock_of_idle rfl
  | raised he hi => exact holdsPadBlock_of_idle rfl
  | staged d he => simpa [Regs.HoldsPadBlock] using hr
  | built he hi => exact holdsPadBlock_newInstance _ _ hi.length_le
  | fed d he hp => exact holdsPadBlock_fedInstance d hr hp hw
  | consumed he hp => exact holdsPadBlock_of_idle rfl

end Sys2Proof.Machine

namespace Sys2Proof.RegisterState

open Sys2Proof Sys2Proof.Machine

/-- Settles O12: a step leaves the registers, resets them or has the effect of one operation on them, and each keeps the
invariants. -/
theorem everyStepKeepsTheInvariants : Obligations.EveryStepKeepsTheInvariants :=
  fun _ _ hs h => step_keeps h hs inv_reset fun _ _ he => he.inv hs

/-- Settles O13: with the same cases; only a data push adds to the count of a live instance. -/
theorem liveInstancesKeepTheirPadBlock : Obligations.LiveInstancesKeepTheirPadBlock :=
  fun _ _ hs hw h => step_keeps h hs (holdsPadBlock_of_idle rfl) fun _ _ he => he.holdsPadBlock hs hw

/-- Settles O11: the reset registers are those of the error state, with code 0. -/
theorem resetStateMeetsTheInvariants : Obligations.ResetStateMeetsTheInvariants :=
  ⟨inv_reset, holdsPadBlock_of_idle rfl⟩

end Sys2Proof.RegisterState
end

section
/-! The family 10_state.md, third part: the registers represent the abstract machine over byte strings
(spec/10_state.md R28 to R31). -/

namespace Sys2Proof.Machine

/-! ### What the registers say of the abstract machine -/

/-- `KEYOVF` is 0 exactly when the staged bytes are a key (spec/10_state.md R26). -/
theorem Represents.staged_length_le {a : Abstract} {r : Regs} (h : Represents a r) (hk : r.keyovf = false) :
    a.staged.length ≤ 64 := by
  rw [h.keyovf, decide_eq_false_iff_not] at hk
  omega

theorem Represents.lt_staged_length {a : Abstract} {r : Regs} (h : Represents a r) (hk : r.keyovf = true) :
    64 < a.staged.length :=
  of_decide_eq_true (h.keyovf ▸ hk)

/-- `KEYBUF` is the padded key when the staged bytes are a key (spec/10_state.md R28). -/
theorem Represents.keybuf_eq_pad64 {a : Abstract} {r : Regs} (h : Represents a r) (hk : r.keyovf = false) :
    r.keybuf = pad64 a.staged := by
  rw [h.keybuf, List.take_of_length_le (h.staged_length_le hk)]

/-- The tag of the live instance is the MAC of the abstract key and message (spec/00_scope.md R10). -/
theorem Represents.instanceTag_eq_macValue {a : Abstract} {r : Regs} (h : Represents a r) (hp : a.phase ≠ .idle) :
    instanceTag r = macValue a.key a.message :=
  instanceTag_mac r a.key a.message (h.opad.trans (if_neg hp)) (h.inner.trans (if_neg hp))

/-! ### What the abstract machine does, along the effects of an operation -/

/-- The abstract machine ignores what the error state ignores (spec/60_exceptions.md R209). -/
theorem Abstract.perform_of_err {a : Abstract} {i : Instr} (ha : a.err ≠ .none) (hi : i ≠ .clear) :
    a.perform i = a := by
  cases i <;> simp_all [Abstract.perform]

@[simp] theorem Abstract.perform_readDigest (a : Abstract) (n : Fin 8) : a.perform (readDigest n) = a := by
  fin_cases n <;> rfl

/-- Both machines raise the same errors (spec/60_exceptions.md R211). -/
theorem Represents.perform_of_raises {a : Abstract} {r : Regs} {i : Instr} {e : ErrCode} (h : Represents a r)
    (he : r.err = .none) (hi : Raises r i e) : a.perform i = Abstract.raise e := by
  have ha : a.err = .none := h.err ▸ he
  have hphase := h.phase
  cases hi with
  | macNew hk => simp [Abstract.perform, ha, h.lt_staged_length hk]
  | kdfLabel hp hk => simp [Abstract.perform, ha, ← hphase, hp, h.lt_staged_length hk]
  | kdfLabelIdle hp => simp [Abstract.perform, ha, ← hphase, hp]
  | pushData d hp => simp [Abstract.perform, ha, ← hphase, hp]
  | final hp => simp [Abstract.perform, ha, ← hphase, hp]
  | kdfLabelLate hp => rcases hp with hp | hp <;> simp [Abstract.perform, ha, ← hphase, hp]
  | illegal w => simp [Abstract.perform, ha]

/-- Both machines start the same instance: the abstract one under the key that the padded key pads. -/
theorem Represents.perform_of_builds {a : Abstract} {r : Regs} {i : Instr} {p : Phase} {kp : Vector Byte 64}
    {m : List Byte} (h : Represents a r) (he : r.err = .none) (hi : Builds r i p kp m) :
    ∃ k, kp = pad64 k ∧ a.perform i = Abstract.start p k m := by
  have ha : a.err = .none := h.err ▸ he
  cases hi with
  | macNew hk =>
    have hle := h.staged_length_le hk
    exact ⟨a.staged, h.keybuf_eq_pad64 hk, by simp [Abstract.perform, ha, hle]⟩
  | kdfStart => exact ⟨domain, rfl, by simp [Abstract.perform, ha]⟩
  | kdfLabel hp hk =>
    have hle := h.staged_length_le hk
    have hap : a.phase = .kdfPath := h.phase ▸ hp
    have htag := h.instanceTag_eq_macValue (by simp [hap])
    exact ⟨a.staged, h.keybuf_eq_pad64 hk, by simp [Abstract.perform, ha, hap, hle, htag]⟩

/-! ### Each effect keeps the representation -/

/-- With no live instance, nothing staged and no tag, every register but `ERR` holds its reset value
(spec/60_exceptions.md R203). -/
theorem represents_raise (e : ErrCode) (r : Regs) : Represents (Abstract.raise e) (enterError e r) where
  phase := rfl
  err := rfl
  keylen := rfl
  keyovf := rfl
  keybuf := pad64_nil.symm
  opad := rfl
  inner := rfl
  digestValid := rfl
  digest := rfl

theorem represents_reset : Represents Abstract.reset Regs.reset := represents_raise .none Regs.reset

theorem represents_start {p : Phase} (k m : List Byte) (hp : p ≠ .idle) :
    Represents (Abstract.start p k m) (newInstance p (pad64 k) m) where
  phase := rfl
  err := rfl
  keylen := rfl
  keyovf := rfl
  keybuf := pad64_nil.symm
  opad := (if_neg hp).symm
  inner := (if_neg hp).symm
  digestValid := rfl
  digest := rfl

/-- A key push appends to the staged bytes (spec/41_mac_engine.md R140). -/
theorem Represents.stage {a : Abstract} {r : Regs} (h : Represents a r) (bs : List Byte) :
    Represents { a with staged := a.staged ++ bs } (stageBytes bs r) := by
  obtain ⟨hlen, hovf, hbuf⟩ := stage_pad bs a.staged r h.keylen h.keyovf h.keybuf
  have hinner : (stageBytes bs r).inner = r.inner := by simp [Regs.inner]
  exact {
    phase := by simp [h.phase]
    err := by simp [h.err]
    keylen := hlen
    keyovf := hovf
    keybuf := hbuf
    opad := by simp [h.opad]
    inner := hinner.trans h.inner
    digestValid := by simp [h.digestValid]
    digest := by simp [h.digest] }

/-- A data push appends to the message (spec/41_mac_engine.md R144, R145). -/
theorem Represents.feed {a : Abstract} {r : Regs} (h : Represents a r) (bs : List Byte) (hp : a.phase ≠ .idle) :
    Represents
      { a with message := a.message ++ bs, phase := if a.phase = .kdfPath then .kdfKey else a.phase }
      (fedInstance bs r) := by
  have hlive : (if a.phase = .kdfPath then Phase.kdfKey else a.phase) ≠ .idle := by
    split
    · simp
    · exact hp
  exact {
    phase := by simp [fedInstance, h.phase]
    err := h.err
    keylen := h.keylen
    keyovf := h.keyovf
    keybuf := h.keybuf
    opad := by
      rw [if_neg hlive]
      exact h.opad.trans (if_neg hp)
    inner := by
      rw [if_neg hlive, ← List.append_assoc, absorb_append, ← h.inner.trans (if_neg hp)]
      rfl
    digestValid := h.digestValid
    digest := h.digest }

/-- `FINAL` publishes the MAC and leaves no instance (spec/41_mac_engine.md R146, R147). -/
theorem Represents.consume {a : Abstract} {r : Regs} (h : Represents a r) (hp : a.phase ≠ .idle) :
    Represents
      { a with phase := .idle, key := [], message := [], tag := some (macValue a.key a.message) }
      (consumedInstance r) where
  phase := rfl
  err := h.err
  keylen := h.keylen
  keyovf := h.keyovf
  keybuf := h.keybuf
  opad := rfl
  inner := rfl
  digestValid := rfl
  digest := h.instanceTag_eq_macValue hp

/-- Every effect of an operation is what the abstract machine does. -/
theorem Effect.represents {a : Abstract} {r r' : Regs} {i : Instr} (he : Effect r i r') (h : Represents a r) :
    Represents (a.perform i) r' := by
  cases he with
  | ignored he hi =>
    rw [Abstract.perform_of_err (h.err ▸ he) hi]
    exact h
  | statusRead => exact h
  | digestRead n =>
    rw [Abstract.perform_readDigest]
    exact h
  | cleared => exact represents_reset
  | raised he hi => exact h.perform_of_raises he hi ▸ represents_raise _ r
  | staged d he =>
    have ha : a.err = .none := h.err ▸ he
    simpa [Abstract.perform, ha] using h.stage d.toBytes
  | built he hi =>
    obtain ⟨k, rfl, hperform⟩ := h.perform_of_builds he hi
    exact hperform ▸ represents_start k _ hi.ne_idle
  | fed d he hp =>
    have ha : a.err = .none := h.err ▸ he
    have hap : a.phase ≠ .idle := h.phase ▸ hp
    simpa [Abstract.perform, ha, hap] using h.feed d.toBytes hap
  | consumed he hp =>
    have ha : a.err = .none := h.err ▸ he
    have hap : a.phase ≠ .idle := h.phase ▸ hp
    simpa [Abstract.perform, ha, hap] using h.consume hap

end Sys2Proof.Machine

namespace Sys2Proof.RegisterState

open Sys2Proof Sys2Proof.Machine

/-- Settles O39: every operation completes, and each of its effects is what the abstract machine does. -/
theorem registersRefineTheAbstractMachine : Obligations.RegistersRefineTheAbstractMachine :=
  ⟨represents_reset, fun _ i s h => ⟨_, exec_eq i s, (effect_regsAfter i s.regs).represents h⟩⟩

end Sys2Proof.RegisterState
end

section
/-! The family 10_state.md, fourth part: what the HOST sees, and that it sees nothing else (spec/10_state.md R25, R26, R32,
R35, R36, R38, R39). -/

namespace Sys2Proof.Machine

/-! ### `STATUS` and the output lines -/

/-- `STATUS[7:4]` (spec/10_state.md R32). -/
theorem extractLsb'_statusWord_err (r : Regs) : (statusWord r).extractLsb' 4 4 = r.err.code := by
  have hvalid := r.digestValid.toNat_lt
  have hovf := r.keyovf.toNat_lt
  apply BitVec.eq_of_toNat_eq
  rw [BitVec.extractLsb'_toNat, statusWord_toNat, Nat.shiftRight_eq_div_pow]
  omega

/-- `STATUS[2]` (spec/10_state.md R32). -/
theorem getLsbD_statusWord_digestValid (r : Regs) : (statusWord r).getLsbD 2 = r.digestValid := by
  have hphase := r.phase.code.isLt
  rw [BitVec.getLsbD, statusWord_toNat, Nat.testBit_eq_decide_div_mod_eq]
  cases r.digestValid with
  | false => exact decide_eq_false (by simp only [Bool.toNat_false]; omega)
  | true => exact decide_eq_true (by simp only [Bool.toNat_true]; omega)

theorem ErrCode.code_eq_zero_iff (e : ErrCode) : e.code = 0 ↔ e = .none := by cases e <;> decide

/-! ### `DIGESTn` -/

/-- `DIGESTn` as a number (spec/10_state.md R35). -/
theorem digestWord_toNat (r : Regs) (n : Fin 8) :
    (digestWord r n).toNat = (r.digest.toList.getD (4 * n.val) 0x00).toNat +
      256 * (r.digest.toList.getD (4 * n.val + 1) 0x00).toNat +
      65536 * (r.digest.toList.getD (4 * n.val + 2) 0x00).toNat +
      16777216 * (r.digest.toList.getD (4 * n.val + 3) 0x00).toNat := by
  have hbyte : ∀ i (hi : i < 32), r.digest.toList.getD i 0x00 = r.digest[i] := by
    intro i hi
    simp [hi]
  rw [digestWord, le32_toNat, hbyte, hbyte, hbyte, hbyte]

/-! ### Two COREs that look alike to the HOST -/

/-- Registers look alike to the HOST when the registers of the column "read by HOST" agree (spec/10_state.md R20). -/
theorem hostView_eq_iff {r₁ r₂ : Regs} : r₁.hostView = r₂.hostView ↔
    r₁.phase = r₂.phase ∧ r₁.err = r₂.err ∧ r₁.digestValid = r₂.digestValid ∧ r₁.keyovf = r₂.keyovf ∧
      r₁.keylen = r₂.keylen ∧ r₁.digest = r₂.digest := by
  simp [Regs.hostView]

/-- The answer to an operation depends only on what the HOST can see. -/
theorem answerOf_of_hostView_eq {r₁ r₂ : Regs} (h : r₁.hostView = r₂.hostView) (i : Instr) :
    answerOf i r₁ = answerOf i r₂ := by
  obtain ⟨hphase, herr, hvalid, hovf, hlen, hdigest⟩ := hostView_eq_iff.mp h
  have hstatus : statusWord r₁ = statusWord r₂ := by simp only [statusWord, hphase, herr, hvalid, hovf, hlen]
  have hword : digestWord r₁ = digestWord r₂ := by
    funext n
    simp only [digestWord, hdigest]
  cases i <;> simp only [answerOf, hstatus, hword]

/-! ### The view after each effect but the tag's publication -/

/-- The view after an error, whatever the registers held. -/
theorem hostView_enterError (e : ErrCode) (r : Regs) :
    (enterError e r).hostView = { Regs.reset.hostView with err := e } := rfl

/-- The view of a new instance shows neither its key nor its message. -/
theorem hostView_newInstance (p : Phase) (kp : Vector Byte 64) (m : List Byte) :
    (newInstance p kp m).hostView = { Regs.reset.hostView with phase := p } := rfl

/-- The view after a data push shows only that there was one (spec/42_kdf_controller.md R172). -/
theorem hostView_fedInstance (bs : List Byte) (r : Regs) :
    (fedInstance bs r).hostView =
      { r.hostView with phase := if r.phase = .kdfPath then .kdfKey else r.phase } := rfl

/-- Whether a byte is stored or overflows depends on `KEYLEN` only (spec/41_mac_engine.md R140). -/
theorem hostView_stageByte_congr {r₁ r₂ : Regs} (h : r₁.hostView = r₂.hostView) (b : Byte) :
    (stageByte r₁ b).hostView = (stageByte r₂ b).hostView := by
  obtain ⟨hphase, herr, hvalid, hovf, hlen, hdigest⟩ := hostView_eq_iff.mp h
  rw [hostView_eq_iff]
  obtain ⟨h₁, e₁⟩ | ⟨h₁, e₁⟩ := stageByte_cases r₁ b <;> obtain ⟨h₂, e₂⟩ | ⟨h₂, e₂⟩ := stageByte_cases r₂ b
  · simp [*]
  · rw [hlen] at h₁
    omega
  · rw [hlen] at h₁
    omega
  · simp [*]

theorem hostView_stageBytes_congr (bs : List Byte) {r₁ r₂ : Regs} (h : r₁.hostView = r₂.hostView) :
    (stageBytes bs r₁).hostView = (stageBytes bs r₂).hostView := by
  induction bs generalizing r₁ r₂ with
  | nil => exact h
  | cons b bs ih => exact ih (hostView_stageByte_congr h b)

/-! ### Every operation but `FINAL` keeps two COREs alike -/

theorem hostView_unlessError_congr {f : Regs → Regs} {r₁ r₂ : Regs} (h : r₁.hostView = r₂.hostView)
    (hf : r₁.err = .none → r₂.err = .none → (f r₁).hostView = (f r₂).hostView) :
    (unlessError f r₁).hostView = (unlessError f r₂).hostView := by
  obtain ⟨-, herr, -⟩ := hostView_eq_iff.mp h
  by_cases he : r₁.err = .none
  · rw [unlessError_none he, unlessError_none (herr ▸ he)]
    exact hf he (herr ▸ he)
  · rw [unlessError_err he, unlessError_err (herr ▸ he)]
    exact h

theorem hostView_macNew_congr {r₁ r₂ : Regs} (h : r₁.hostView = r₂.hostView) (he₁ : r₁.err = .none)
    (he₂ : r₂.err = .none) : (macNew r₁).hostView = (macNew r₂).hostView := by
  obtain ⟨-, -, -, hovf, -⟩ := hostView_eq_iff.mp h
  cases hk : r₁.keyovf with
  | true => rw [macNew_of_keyovf hk, macNew_of_keyovf (hovf ▸ hk), hostView_enterError, hostView_enterError]
  | false =>
    rw [macNew_of_not_keyovf he₁ hk, macNew_of_not_keyovf he₂ (hovf ▸ hk), hostView_newInstance, hostView_newInstance]

theorem hostView_kdfStart_congr {r₁ r₂ : Regs} (he₁ : r₁.err = .none) (he₂ : r₂.err = .none) :
    (kdfStart r₁).hostView = (kdfStart r₂).hostView := by
  rw [kdfStart_eq he₁, kdfStart_eq he₂]

/-- The tag that `KDF_LABEL` computes goes to the new instance and not to `DIGEST` (spec/10_state.md R31). -/
theorem hostView_kdfLabel_congr {r₁ r₂ : Regs} (h : r₁.hostView = r₂.hostView) (he₁ : r₁.err = .none)
    (he₂ : r₂.err = .none) : (kdfLabel r₁).hostView = (kdfLabel r₂).hostView := by
  obtain ⟨hphase, -, -, hovf, -⟩ := hostView_eq_iff.mp h
  have late (hp : r₁.phase = .mac ∨ r₁.phase = .kdfKey) : (kdfLabel r₁).hostView = (kdfLabel r₂).hostView := by
    rw [kdfLabel_of_late hp, kdfLabel_of_late (hphase ▸ hp), hostView_enterError, hostView_enterError]
  cases hp : r₁.phase with
  | idle => rw [kdfLabel_of_idle hp, kdfLabel_of_idle (hphase ▸ hp), hostView_enterError, hostView_enterError]
  | mac => exact late (.inl hp)
  | kdfKey => exact late (.inr hp)
  | kdfPath =>
    cases hk : r₁.keyovf with
    | true =>
      rw [kdfLabel_of_keyovf hp hk, kdfLabel_of_keyovf (hphase ▸ hp) (hovf ▸ hk), hostView_enterError,
        hostView_enterError]
    | false =>
      rw [kdfLabel_of_kdfPath he₁ hp hk, kdfLabel_of_kdfPath he₂ (hphase ▸ hp) (hovf ▸ hk), hostView_newInstance,
        hostView_newInstance]

theorem hostView_feedData_congr {r₁ r₂ : Regs} (h : r₁.hostView = r₂.hostView) (bs : List Byte) :
    (feedData bs r₁).hostView = (feedData bs r₂).hostView := by
  obtain ⟨hphase, -⟩ := hostView_eq_iff.mp h
  by_cases hp : r₁.phase = .idle
  · rw [feedData_of_idle hp, feedData_of_idle (hphase ▸ hp), hostView_enterError, hostView_enterError]
  · rw [feedData_of_live hp, feedData_of_live (hphase ▸ hp), hostView_fedInstance, hostView_fedInstance, h, hphase]

/-- Only `FINAL` shows the HOST a value computed from the hidden registers (spec/10_state.md R36). -/
theorem hostView_regsAfter_congr {r₁ r₂ : Regs} (h : r₁.hostView = r₂.hostView) {i : Instr} (hi : i ≠ .final) :
    (regsAfter i r₁).hostView = (regsAfter i r₂).hostView := by
  cases i with
  | macNew => exact hostView_unlessError_congr h (hostView_macNew_congr h)
  | kdfStart => exact hostView_unlessError_congr h hostView_kdfStart_congr
  | kdfLabel => exact hostView_unlessError_congr h (hostView_kdfLabel_congr h)
  | final => exact absurd rfl hi
  | clear => rfl
  | pushKey d => exact hostView_unlessError_congr h fun _ _ => hostView_stageBytes_congr d.toBytes h
  | pushData d => exact hostView_unlessError_congr h fun _ _ => hostView_feedData_congr h d.toBytes
  | illegal w => exact hostView_unlessError_congr h fun _ _ => rfl
  | rdStatus | rdDigest0 | rdDigest1 | rdDigest2 | rdDigest3 | rdDigest4 | rdDigest5 | rdDigest6 | rdDigest7 => exact h

/-! ### Runs of two COREs -/

/-- A legal transaction is the operation it decodes to (spec/30_encoding.md R91). -/
theorem perform_legal {t : Transaction} {i : Instr} (hd : decode t = .ok i) (s : State) :
    perform (.access t) s = exec i s := by
  simp only [perform, hd]

/-- An illegal transaction is answered, and no more (spec/20_memory.md R65). -/
theorem perform_illegal {t : Transaction} {x : Reject} (hd : decode t = .error x) (s : State) :
    perform (.access t) s = .next (busError t s) := by
  simp only [perform, hd]

/-- Two COREs that look alike to the HOST and have been given the same inputs. -/
structure AlikeToHost (s₁ s₂ : State) : Prop where
  view : s₁.regs.hostView = s₂.regs.hostView
  inbox : s₁.inbox = s₂.inbox
  answers : s₁.answers = s₂.answers
  interruptions : s₁.interruptions = s₂.interruptions

/-- One input other than `FINAL` is answered alike, and keeps two COREs alike; it brings no input in. -/
theorem perform_alikeToHost {s₁ s₂ : State} (h : AlikeToHost s₁ s₂) {e : HostEvent} (he : e.isFinal = false) :
    ∃ t₁ t₂, perform e s₁ = .next t₁ ∧ perform e s₂ = .next t₂ ∧ AlikeToHost t₁ t₂ ∧ t₁.inbox = s₁.inbox := by
  obtain ⟨hview, hinbox, hanswers, hcount⟩ := h
  cases e with
  | access t =>
    cases hd : decode t with
    | ok i =>
      have hi : i ≠ .final := by
        rintro rfl
        simp [HostEvent.isFinal, hd] at he
      refine ⟨_, _, (perform_legal hd s₁).trans (exec_eq i s₁), (perform_legal hd s₂).trans (exec_eq i s₂),
        ⟨hostView_regsAfter_congr hview hi, hinbox, ?_, hcount⟩, rfl⟩
      simp [hanswers, answerOf_of_hostView_eq hview i]
    | error x =>
      refine ⟨_, _, perform_illegal hd s₁, perform_illegal hd s₂, ⟨hview, hinbox, ?_, hcount⟩, rfl⟩
      simp [busError, hanswers]
  | reset => exact ⟨_, _, rfl, rfl, ⟨rfl, hinbox, hanswers, hcount⟩, rfl⟩
  | resetDuring t =>
    refine ⟨_, _, rfl, rfl, ⟨rfl, hinbox, ?_, ?_⟩, rfl⟩
    · simp [interruptedReset, hardwareReset, hanswers, hcount]
    · simp [interruptedReset, hardwareReset, hcount]

/-- A step keeps two COREs alike, as long as no `FINAL` is pending. -/
theorem step_alikeToHost {s₁ s₂ : State} (h : AlikeToHost s₁ s₂) (hf : ∀ e ∈ s₁.inbox, e.isFinal = false) :
    ∃ t₁ t₂, step s₁ = .next t₁ ∧ step s₂ = .next t₂ ∧ AlikeToHost t₁ t₂ ∧ ∀ e ∈ t₁.inbox, e.isFinal = false := by
  cases hbox : s₁.inbox with
  | nil => exact ⟨s₁, s₂, step_of_inbox_nil hbox, step_of_inbox_nil (h.inbox ▸ hbox), h, hf⟩
  | cons e rest =>
    rw [hbox, List.forall_mem_cons] at hf
    have hrest : AlikeToHost (s₁.setInbox rest) (s₂.setInbox rest) := ⟨h.view, rfl, h.answers, h.interruptions⟩
    obtain ⟨t₁, t₂, h₁, h₂, halike, hkept⟩ := perform_alikeToHost hrest hf.1
    exact ⟨t₁, t₂, by simp only [step, hbox, h₁], by simp only [step, h.inbox ▸ hbox, h₂], halike,
      hkept ▸ hf.2⟩

/-- Runs of any length keep two COREs alike, as long as no `FINAL` is pending. -/
theorem run_alikeToHost (n : Nat) {s₁ s₂ : State} (h : AlikeToHost s₁ s₂) (hf : ∀ e ∈ s₁.inbox, e.isFinal = false) :
    ∃ t₁ t₂, Host.Core.run Sys2Proof.core n s₁ = .next t₁ ∧ Host.Core.run Sys2Proof.core n s₂ = .next t₂ ∧
      AlikeToHost t₁ t₂ := by
  induction n generalizing s₁ s₂ with
  | zero => exact ⟨s₁, s₂, rfl, rfl, h⟩
  | succ n ih =>
    obtain ⟨u₁, u₂, h₁, h₂, halike, hu⟩ := step_alikeToHost h hf
    rw [run_step n h₁, run_step n h₂]
    exact ih halike hu

/-! ### `DIGEST_VALID` and the tag -/

/-- The operations that keep a tag: key pushes and reads (spec/10_state.md R25). -/
def keepsTag : Instr → Bool
  | .pushKey _ | .rdStatus => true
  | .rdDigest0 | .rdDigest1 | .rdDigest2 | .rdDigest3 | .rdDigest4 | .rdDigest5 | .rdDigest6 | .rdDigest7 => true
  | .macNew | .kdfStart | .kdfLabel | .final | .clear | .pushData _ | .illegal _ => false

theorem keepsTag_iff (i : Instr) :
    keepsTag i = true ↔ (∃ d, i = .pushKey d) ∨ i = .rdStatus ∨ ∃ n, i = readDigest n := by
  constructor
  · intro h
    cases i with
    | pushKey d => exact .inl ⟨d, rfl⟩
    | rdStatus => exact .inr (.inl rfl)
    | rdDigest0 => exact .inr (.inr ⟨0, rfl⟩)
    | rdDigest1 => exact .inr (.inr ⟨1, rfl⟩)
    | rdDigest2 => exact .inr (.inr ⟨2, rfl⟩)
    | rdDigest3 => exact .inr (.inr ⟨3, rfl⟩)
    | rdDigest4 => exact .inr (.inr ⟨4, rfl⟩)
    | rdDigest5 => exact .inr (.inr ⟨5, rfl⟩)
    | rdDigest6 => exact .inr (.inr ⟨6, rfl⟩)
    | rdDigest7 => exact .inr (.inr ⟨7, rfl⟩)
    | macNew | kdfStart | kdfLabel | final | clear | pushData | illegal => cases h
  · rintro (⟨d, rfl⟩ | rfl | ⟨n, rfl⟩)
    · rfl
    · rfl
    · fin_cases n <;> rfl

/-- With a live instance there is no tag (I5 of spec/10_state.md R37). -/
theorem Regs.Inv.digestValid_of_live {r : Regs} (hr : r.Inv) (hp : r.phase ≠ .idle) : r.digestValid = false :=
  Bool.eq_false_iff.mpr fun h => hp (hr.valid_idle h).1

/-- In the error state there is no tag (I5 of spec/10_state.md R37). -/
theorem Regs.Inv.digestValid_of_err {r : Regs} (hr : r.Inv) (he : r.err ≠ .none) : r.digestValid = false :=
  Bool.eq_false_iff.mpr fun h => he (hr.valid_idle h).2

/-- A tag after an operation was published by it, or was there and kept (spec/10_state.md R25). -/
theorem Effect.digestValid_iff {r r' : Regs} {i : Instr} (h : Effect r i r') (hr : r.Inv) :
    r'.digestValid = true ↔
      (i = .final ∧ r.err = .none ∧ r.phase ≠ .idle) ∨ (r.digestValid = true ∧ keepsTag i = true) := by
  cases h with
  | ignored he hi => simp [hr.digestValid_of_err he, he]
  | statusRead => simp [keepsTag]
  | digestRead n => fin_cases n <;> simp [readDigest, keepsTag]
  | cleared => simp [keepsTag]
  | raised he hi => cases hi <;> simp_all [keepsTag]
  | staged d he => simp [keepsTag]
  | built he hi => cases hi <;> simp [keepsTag]
  | fed d he hp => simp [fedInstance, hr.digestValid_of_live hp, keepsTag]
  | consumed he hp => simp [consumedInstance, he, hp]

/-- A tag that is kept stays the same. -/
theorem Effect.digest_eq {r r' : Regs} {i : Instr} (h : Effect r i r') (hr : r.Inv) (hv : r.digestValid = true)
    (hv' : r'.digestValid = true) : r'.digest = r.digest := by
  cases h with
  | ignored | statusRead | digestRead => rfl
  | cleared | raised | built => cases hv'
  | staged d he => exact stageBytes_digest _ r
  | fed d he hp => rfl
  | consumed he hp => exact absurd (hr.valid_idle hv).1 hp

/-! ### `KEYOVF` -/

/-- An overflow after an operation comes from its push, or was there and kept (spec/10_state.md R26). -/
theorem Effect.keyovf_iff {r r' : Regs} {i : Instr} (h : Effect r i r') (hr : r.Inv) (he : r.err = .none) :
    r'.keyovf = true ↔ r'.err = .none ∧
      ((∃ d, i = .pushKey d ∧ 64 < r.keylen.toNat + d.size.bytes) ∨
        (r.keyovf = true ∧ i ≠ .macNew ∧ i ≠ .kdfStart ∧ i ≠ .kdfLabel ∧ i ≠ .clear)) := by
  cases h with
  | ignored hne _ => exact absurd he hne
  | statusRead => simp [he]
  | digestRead n => fin_cases n <;> simp [readDigest, he]
  | cleared => simp
  | raised _ hi => simp [hi.ne_none]
  | staged d _ =>
    obtain ⟨-, hovf, -⟩ := stageBytes_spec d.toBytes r hr.keylen_le
    simp [hovf, he, toBytes_length, or_comm]
  | built _ hi => cases hi <;> simp
  | fed d _ hp => simp [fedInstance, he]
  | consumed _ hp => simp [consumedInstance, he]

end Sys2Proof.Machine

namespace Sys2Proof.RegisterState

open Sys2Proof Sys2Proof.Machine

/-- Settles O33: every step keeps two COREs alike to the HOST, as long as no `FINAL` is pending. -/
theorem hiddenRegistersHaveNoReadPath : Obligations.HiddenRegistersHaveNoReadPath := by
  intro n s₁ s₂ hview hinbox hanswers hcount hf
  obtain ⟨t₁, t₂, h₁, h₂, halike⟩ := run_alikeToHost n ⟨hview, hinbox, hanswers, hcount⟩ hf
  exact ⟨t₁, t₂, h₁, h₂, halike.answers, halike.view⟩

/-- Settles O23: `STATUS` as a number. -/
theorem readStatusReturnsTheFields : Obligations.ReadStatusReturnsTheFields :=
  ⟨rfl, fun s => ⟨statusWord s.regs, statusWord_toNat s.regs, rfl⟩⟩

/-- Settles O24: `DIGESTn` as a number. -/
theorem readDigestReturnsTheTagBytes : Obligations.ReadDigestReturnsTheTagBytes :=
  ⟨by decide, fun s => ⟨digestWord s.regs, digestWord_toNat s.regs, rfl, rfl, rfl, rfl, rfl, rfl, rfl, rfl⟩⟩

/-- Settles O29: effect by effect, with the invariants I5 and I6 of spec/10_state.md R37. -/
theorem tagLivesUntilTheNextConstruction : Obligations.TagLivesUntilTheNextConstruction := by
  intro i s t hs h
  have heffect := effect_of_exec h
  rw [← keepsTag_iff]
  exact ⟨heffect.digestValid_iff hs, heffect.digest_eq hs, (heffect.inv hs).invalid_zero⟩

/-- Settles O30: effect by effect, with the closed form of staging key bytes. -/
theorem overflowLivesUntilTheNextConstruction : Obligations.OverflowLivesUntilTheNextConstruction :=
  fun _ _ _ hs he h => (effect_of_exec h).keyovf_iff hs he

/-- Settles O31: the two fields of `STATUS`. -/
theorem outputLinesCopyStatusBits : Obligations.OutputLinesCopyStatusBits := by
  intro r
  refine ⟨(getLsbD_statusWord_digestValid r).symm, ?_⟩
  rw [extractLsb'_statusWord_err, Ne, ErrCode.code_eq_zero_iff, errLine, bne_iff_ne]

end Sys2Proof.RegisterState
end

section
/-! The family 20_memory.md: which transactions are legal, and the answer to each (spec/20_memory.md R60 to R65). -/

namespace Sys2Proof

/-! ### Registers and offsets (spec/20_memory.md R60) -/

theorem portAt_offset (p : Port) : portAt p.offset = some p := by
  cases p with
  | cmd | status | keyIn | dataIn => rfl
  | digest n => fin_cases n <;> rfl

/-- A register is found at its own offset only (spec/20_memory.md R66). -/
theorem eq_offset_of_portAt {off : BitVec 6} {p : Port} (h : portAt off = some p) : off = p.offset := by
  have hall : ∀ off : BitVec 6, ∀ p ∈ portAt off, off = p.offset := by decide
  exact hall off p h

/-- The offset of `DIGESTn`, by the number R62 gives it. -/
theorem eq_offset_digest {off : BitVec 6} {n : Fin 8} (h : off.toNat = 0x10 + 4 * n.val) :
    off = (Port.digest n).offset := by
  apply BitVec.eq_of_toNat_eq
  rw [h, Port.offset, BitVec.toNat_ofNat]
  omega

/-! ### Decoding at a register -/

@[simp] theorem decode_read_offset (p : Port) (size : Size) : decode (.read p.offset size) = decodeRead p size := by
  simp only [decode, portAt_offset]

@[simp] theorem decode_write_offset (p : Port) (d : WData) : decode (.write p.offset d) = decodeWrite p d := by
  simp only [decode, portAt_offset]

/-- A read that decodes is the read of a register. -/
theorem decode_read_ok {off : BitVec 6} {size : Size} {i : Instr} (h : decode (.read off size) = .ok i) :
    ∃ p : Port, off = p.offset ∧ decodeRead p size = .ok i := by
  cases hp : portAt off with
  | none => simp [decode, hp] at h
  | some p =>
    obtain rfl := eq_offset_of_portAt hp
    exact ⟨p, rfl, decode_read_offset p size ▸ h⟩

/-- A write that decodes is a write of a register. -/
theorem decode_write_ok {off : BitVec 6} {d : WData} {i : Instr} (h : decode (.write off d) = .ok i) :
    ∃ p : Port, off = p.offset ∧ decodeWrite p d = .ok i := by
  cases hp : portAt off with
  | none => simp [decode, hp] at h
  | some p =>
    obtain rfl := eq_offset_of_portAt hp
    exact ⟨p, rfl, decode_write_offset p d ▸ h⟩

/-! ### What decodes is the encoding of its operation (spec/30_encoding.md R92) -/

@[simp] theorem encode_decodeCmd (w : Word) : encode (decodeCmd w) = cmdWrite w := by
  unfold decodeCmd
  split_ifs <;> simp only [encode, *]

@[simp] theorem encode_readDigest (n : Fin 8) : encode (readDigest n) = .read (Port.digest n).offset .word := by
  fin_cases n <;> rfl

theorem encode_of_decodeRead {p : Port} {size : Size} {i : Instr} (h : decodeRead p size = .ok i) :
    encode i = .read p.offset size := by
  cases p with
  | cmd | keyIn | dataIn => cases h
  | status => cases size <;> cases h; rfl
  | digest n => cases size <;> cases h; exact encode_readDigest n

theorem encode_of_decodeWrite {p : Port} {d : WData} {i : Instr} (h : decodeWrite p d = .ok i) :
    encode i = .write p.offset d := by
  cases p with
  | cmd => cases d <;> cases h; exact encode_decodeCmd _
  | keyIn | dataIn => cases h; rfl
  | status | digest => cases h

theorem encode_of_decode {t : Transaction} {i : Instr} (h : decode t = .ok i) : encode i = t := by
  cases t with
  | read off size =>
    obtain ⟨p, rfl, hp⟩ := decode_read_ok h
    exact encode_of_decodeRead hp
  | write off d =>
    obtain ⟨p, rfl, hp⟩ := decode_write_ok h
    exact encode_of_decodeWrite hp

/-! ### Legal transactions (spec/20_memory.md R62) -/

/-- The encoding of every operation is on the list of R62. -/
theorem legal_encode (i : Instr) : (encode i).Legal := by
  cases i with
  | macNew => exact Laws.EncodesLegally.macNew
  | kdfStart => exact Laws.EncodesLegally.kdfStart
  | kdfLabel => exact Laws.EncodesLegally.kdfLabel
  | final => exact Laws.EncodesLegally.final
  | clear => exact Laws.EncodesLegally.clear
  | pushKey d => exact Laws.EncodesLegally.pushKey d
  | pushData d => exact Laws.EncodesLegally.pushData d
  | rdStatus => exact Laws.EncodesLegally.rdStatus
  | rdDigest0 => exact Laws.EncodesLegally.rdDigest0
  | rdDigest1 => exact Laws.EncodesLegally.rdDigest1
  | rdDigest2 => exact Laws.EncodesLegally.rdDigest2
  | rdDigest3 => exact Laws.EncodesLegally.rdDigest3
  | rdDigest4 => exact Laws.EncodesLegally.rdDigest4
  | rdDigest5 => exact Laws.EncodesLegally.rdDigest5
  | rdDigest6 => exact Laws.EncodesLegally.rdDigest6
  | rdDigest7 => exact Laws.EncodesLegally.rdDigest7
  | illegal w => exact Laws.EncodesLegally.illegal w

/-- The reads on the list of R62. -/
theorem decode_of_legal_read {off : BitVec 6} {size : Size} (h : (Transaction.read off size).Legal) :
    ∃ i, decode (.read off size) = .ok i := by
  obtain ⟨⟨⟩, -⟩ | ⟨-, hoff, hsize⟩ | ⟨⟨⟩, -⟩ | ⟨⟨⟩, -⟩ | ⟨-, ⟨n, hoff⟩, hsize⟩ := h
  · obtain rfl : off = Port.status.offset := hoff
    obtain rfl : size = .word := hsize
    exact ⟨.rdStatus, decode_read_offset .status .word⟩
  · obtain rfl := eq_offset_digest hoff
    obtain rfl : size = .word := hsize
    exact ⟨readDigest n, decode_read_offset (.digest n) .word⟩

/-- The writes on the list of R62. -/
theorem decode_of_legal_write {off : BitVec 6} {d : WData} (h : (Transaction.write off d).Legal) :
    ∃ i, decode (.write off d) = .ok i := by
  obtain ⟨-, hoff, hsize⟩ | ⟨⟨⟩, -⟩ | ⟨-, hoff, -⟩ | ⟨-, hoff, -⟩ | ⟨⟨⟩, -⟩ := h
  · obtain rfl : off = Port.cmd.offset := hoff
    cases d with
    | b | h => cases hsize
    | w v => exact ⟨decodeCmd v, decode_write_offset .cmd (.w v)⟩
  · obtain rfl : off = Port.keyIn.offset := hoff
    exact ⟨.pushKey d, decode_write_offset .keyIn d⟩
  · obtain rfl : off = Port.dataIn.offset := hoff
    exact ⟨.pushData d, decode_write_offset .dataIn d⟩

/-- The list of R62 is exactly what the decoder accepts. -/
theorem legal_iff_decode_ok (t : Transaction) : t.Legal ↔ ∃ i, decode t = .ok i := by
  constructor
  · intro h
    cases t with
    | read off size => exact decode_of_legal_read h
    | write off d => exact decode_of_legal_write h
  · rintro ⟨i, hd⟩
    exact encode_of_decode hd ▸ legal_encode i

/-- Every other transaction the decoder rejects (spec/20_memory.md R65). -/
theorem decode_error_of_not_legal {t : Transaction} (h : ¬ t.Legal) : ∃ x, decode t = .error x := by
  cases hd : decode t with
  | ok i => exact absurd ((legal_iff_decode_ok t).mpr ⟨i, hd⟩) h
  | error x => exact ⟨x, rfl⟩

end Sys2Proof

namespace Sys2Proof.Machine

/-! ### Answers (spec/20_memory.md R61, R63 to R65) -/

/-- The answer to an operation has data exactly when its transaction is a read. -/
theorem answerOf_rdata_isSome_iff (i : Instr) (r : Regs) :
    (answerOf i r).rdata.isSome = true ↔ (encode i).dir = .read := by
  cases i <;> simp [answerOf, okayRead, okayWrite, encode, cmdWrite, Transaction.dir]

/-- The answer to an illegal transaction (spec/20_memory.md R65). -/
def errorAnswer (t : Transaction) : Answer := ⟨.error, if t.dir = .read then some 0x00000000 else none⟩

theorem busError_eq (t : Transaction) (s : State) : busError t s = s.addAnswer (errorAnswer t) := by
  cases t <;> rfl

theorem errorAnswer_rdata_isSome_iff (t : Transaction) : (errorAnswer t).rdata.isSome = true ↔ t.dir = .read := by
  cases t <;> simp [errorAnswer, Transaction.dir]

/-- A step on a legal transaction gives one answer, `OKAY`, with data for a read. -/
theorem step_of_legal {s : State} {t : Transaction} {rest : List HostEvent}
    (h : s.inbox = .access t :: rest) (ht : t.Legal) :
    ∃ r a, step s = .next (((s.setInbox rest).setRegs r).addAnswer a) ∧ a.resp = .okay ∧
      (a.rdata.isSome = true ↔ t.dir = .read) := by
  obtain ⟨i, hd⟩ := (legal_iff_decode_ok t).mp ht
  refine ⟨_, _, (step_legal h hd).trans (exec_eq i _), answerOf_resp i _, ?_⟩
  rw [answerOf_rdata_isSome_iff, encode_of_decode hd]

/-- A step on an illegal transaction only answers `ERROR` (spec/60_exceptions.md R208). -/
theorem step_of_not_legal {s : State} {t : Transaction} {rest : List HostEvent}
    (h : s.inbox = .access t :: rest) (ht : ¬ t.Legal) :
    step s = .next ((s.setInbox rest).addAnswer (errorAnswer t)) := by
  obtain ⟨x, hd⟩ := decode_error_of_not_legal ht
  rw [step_illegal h hd, busError_eq]

end Sys2Proof.Machine

namespace Sys2Proof.Memory

open Sys2Proof Sys2Proof.Machine

/-- Settles O3: the list of R62 entry by entry, and back by the encoder. -/
theorem legalTransactionsDecode : Obligations.LegalTransactionsDecode :=
  legal_iff_decode_ok

/-- Settles O6: the decoder rejects what R62 does not list, and a rejected transaction is answered and no more. -/
theorem illegalTransactionsOnlyAnswerError : Obligations.IllegalTransactionsOnlyAnswerError :=
  fun _ _ _ h ht => step_of_not_legal h ht

/-- Settles O7: by the answer to a legal transaction and the answer to an illegal one. -/
theorem everyTransactionIsAnsweredOnce : Obligations.EveryTransactionIsAnsweredOnce := by
  intro s t rest h
  by_cases ht : t.Legal
  · obtain ⟨r, a, hstep, hresp, hdata⟩ := step_of_legal h ht
    exact ⟨_, a, hstep, rfl, rfl, iff_of_true hresp ht, hdata⟩
  · exact ⟨_, errorAnswer t, step_of_not_legal h ht, rfl, rfl, iff_of_false (by simp [errorAnswer]) ht,
      errorAnswer_rdata_isSome_iff t⟩

/-- Settles O5: the step's equation for a transaction that decodes. -/
theorem stepRunsTheDecodedInstruction : Obligations.StepRunsTheDecodedInstruction :=
  fun _ _ _ _ h hd => step_legal h hd

end Sys2Proof.Memory
end

section
/-! The family 30_encoding.md: decoding and encoding are inverse, and the illegal command words (spec/30_encoding.md R92,
R94, R95; spec/43_system_commands.md R191). -/

namespace Sys2Proof

/-! ### Command words (spec/30_encoding.md R95) -/

theorem isCommandWord_iff_toNat (w : Word) : isCommandWord w = true ↔ 1 ≤ w.toNat ∧ w.toNat ≤ 5 := by
  simp only [isCommandWord, Bool.or_eq_true, beq_iff_eq]
  bv_omega

/-- By the fields of the word, as R95 has them. -/
theorem isCommandWord_iff_fields (w : Word) :
    isCommandWord w = true ↔
      w.extractLsb' 8 24 = 0 ∧ 1 ≤ (w.extractLsb' 0 8).toNat ∧ (w.extractLsb' 0 8).toNat ≤ 5 := by
  have hhigh : w.extractLsb' 8 24 = 0 ↔ w.toNat / 256 = 0 := by
    rw [← BitVec.toNat_inj, BitVec.extractLsb'_toNat, Nat.shiftRight_eq_div_pow, show (0 : BitVec 24).toNat = 0 from rfl]
    omega
  have hlow : (w.extractLsb' 0 8).toNat = w.toNat % 256 := by
    rw [BitVec.extractLsb'_toNat, Nat.shiftRight_zero]
  rw [isCommandWord_iff_toNat, hhigh, hlow]
  omega

theorem wellFormed_illegal_iff (w : Word) : (Instr.illegal w).wellFormed = true ↔ isCommandWord w = false := by
  cases hw : isCommandWord w <;> simp [Instr.wellFormed, Instr.check, hw]

theorem decodeCmd_of_not_command {w : Word} (h : isCommandWord w = false) : decodeCmd w = .illegal w := by
  simp only [isCommandWord, Bool.or_eq_false_iff, beq_eq_false_iff_ne] at h
  simp only [decodeCmd, h, if_false]

theorem wellFormed_decodeCmd (w : Word) : (decodeCmd w).wellFormed = true := by
  cases hw : isCommandWord w with
  | false => rw [decodeCmd_of_not_command hw, wellFormed_illegal_iff, hw]
  | true =>
    simp only [isCommandWord, Bool.or_eq_true, beq_iff_eq] at hw
    obtain (((rfl | rfl) | rfl) | rfl) | rfl := hw <;> rfl

theorem decodeCmd_eq_illegal_iff (w : Word) : decodeCmd w = .illegal w ↔ isCommandWord w = false :=
  ⟨fun h => (wellFormed_illegal_iff w).mp (h ▸ wellFormed_decodeCmd w), decodeCmd_of_not_command⟩

/-! ### Decoding an encoding, and back (spec/30_encoding.md R92) -/

theorem decode_cmdWrite (w : Word) : decode (cmdWrite w) = .ok (decodeCmd w) :=
  decode_write_offset .cmd (.w w)

/-- Only `ILLEGAL` needs its operand checked: its word must be none of the five that decode to another operation. -/
theorem decode_encode {i : Instr} (h : i.wellFormed = true) : decode (encode i) = .ok i := by
  cases i with
  | macNew | kdfStart | kdfLabel | final | clear => exact decode_cmdWrite _
  | pushKey d => exact decode_write_offset .keyIn d
  | pushData d => exact decode_write_offset .dataIn d
  | rdStatus => exact decode_read_offset .status .word
  | rdDigest0 | rdDigest1 | rdDigest2 | rdDigest3 | rdDigest4 | rdDigest5 | rdDigest6 | rdDigest7 =>
    exact decode_read_offset (.digest _) .word
  | illegal w =>
    have hw : isCommandWord w = false := (wellFormed_illegal_iff w).mp h
    rw [encode, decode_cmdWrite, decodeCmd_of_not_command hw]

/-- An `ILLEGAL` that was decoded comes from its own `CMD` word, which therefore is no command word. -/
theorem wellFormed_of_decode {t : Transaction} {i : Instr} (h : decode t = .ok i) : i.wellFormed = true := by
  cases i with
  | illegal w =>
    obtain rfl : cmdWrite w = t := encode_of_decode h
    have hcmd : decodeCmd w = .illegal w := Except.ok.inj ((decode_cmdWrite w).symm.trans h)
    exact hcmd ▸ wellFormed_decodeCmd w
  | _ => rfl

/-- The `CMD` words that decode to `ILLEGAL`. -/
theorem decode_cmdWrite_eq_illegal_iff (w : Word) :
    decode (cmdWrite w) = .ok (.illegal w) ↔
      w.extractLsb' 8 24 ≠ 0 ∨ ¬ (1 ≤ (w.extractLsb' 0 8).toNat ∧ (w.extractLsb' 0 8).toNat ≤ 5) := by
  rw [decode_cmdWrite, Except.ok.injEq, decodeCmd_eq_illegal_iff, ← Bool.not_eq_true, isCommandWord_iff_fields,
    Classical.not_and_iff_not_or_not]

end Sys2Proof

namespace Sys2Proof.Machine

/-! ### `ILLEGAL` (spec/43_system_commands.md R191) -/

/-- With no error latched, `ILLEGAL` enters the error state. -/
theorem exec_illegal_of_no_err (w : Word) {s : State} (h : s.regs.err = .none) :
    exec (.illegal w) s = .next ((s.setRegs (enterError .illegalCommand s.regs)).addAnswer okayWrite) := by
  rw [exec_eq, regsAfter, unlessError_none h, answerOf]

/-- In the error state `ILLEGAL` is answered, and no more. -/
theorem exec_illegal_of_err (w : Word) {s : State} (h : s.regs.err ≠ .none) :
    exec (.illegal w) s = .next (s.addAnswer okayWrite) := by
  rw [exec_eq, regsAfter, unlessError_err h, answerOf, State.setRegs]

end Sys2Proof.Machine

namespace Sys2Proof.Encoding

open Sys2Proof Sys2Proof.Machine

/-- Settles O1: operation by operation, through the register each one accesses. -/
theorem encodedInstructionsDecodeBack : Obligations.EncodedInstructionsDecodeBack :=
  fun _ h => decode_encode h

/-- Settles O2: what decodes is well formed, and is the encoding of its operation. -/
theorem decodedTransactionsEncodeBack : Obligations.DecodedTransactionsEncodeBack :=
  fun _ _ h => ⟨wellFormed_of_decode h, encode_of_decode h⟩

/-- Settles O22: the condition of R95 on the fields of the word, and the two effects of `ILLEGAL`. -/
theorem illegalCommandWordsRaise : Obligations.IllegalCommandWordsRaise :=
  ⟨decode_cmdWrite_eq_illegal_iff, fun w _ => ⟨exec_illegal_of_no_err w, exec_illegal_of_err w⟩⟩

/-- Settles O4: each transaction is run through the decoder. -/
theorem writtenOutTransactionsDecode : Obligations.WrittenOutTransactionsDecode := by
  unfold Obligations.WrittenOutTransactionsDecode
  decide

end Sys2Proof.Encoding
end

section
/-! The family 40_hash_primitive.md: the padding of the whole message and the padding of the partial block are the same bytes
in the same blocks (spec/40_hash_primitive.md R113). -/

namespace Sys2Proof.Machine

/-- What padding puts behind a message whose last `r` bytes fill no block: `0x80`, zeros up to 56 modulo 64, and the 8 bytes
of `bits` (R113). -/
def padding (r : Nat) (bits : BitVec 64) : List Byte :=
  [0x80] ++ List.replicate ((119 - r) % 64) 0x00 ++ be64 bits

/-- How many blocks `r` waiting bytes and their padding fill. -/
def paddedBlocks (r : Nat) : Nat := if 56 ≤ r then 2 else 1

theorem padMessage_eq (m : List Byte) :
    padMessage m = m ++ padding (m.length % 64) (BitVec.ofNat 64 (8 * m.length)) := by
  simp only [padMessage, padding, List.append_assoc]

/-- The waiting bytes and their padding are whole blocks. -/
theorem add_length_padding {r : Nat} (hr : r < 64) (bits : BitVec 64) :
    r + (padding r bits).length = 64 * paddedBlocks r := by
  simp only [padding, paddedBlocks, be64, List.length_append, List.length_cons, List.length_nil, List.length_replicate]
  split <;> omega

theorem compressBlocks_one (h : Vector Word 8) {l : List Byte} (hl : l.length = 64) :
    compressBlocks 1 h l = compress h l := by
  simp only [compressBlocks]
  rw [List.take_of_length_le hl.le]

theorem HashState.fill_lt (s : HashState) : s.fill < 64 := Nat.mod_lt _ (by decide)

/-- The bytes of the partial block that wait (R112). -/
def HashState.waiting (s : HashState) : List Byte := s.buf.toList.take s.fill

theorem HashState.length_waiting (s : HashState) : s.waiting.length = s.fill := by
  rw [waiting, List.length_take_of_le (by simpa using s.fill_lt.le)]

/-- The blocks that `Digest32` compresses on its copy are the waiting bytes with their padding (R113). -/
theorem padAndCompress_eq (s : HashState) :
    padAndCompress s = compressBlocks (paddedBlocks s.fill) s.h (s.waiting ++ padding s.fill (s.len * 8)) := by
  have hfill : s.fill < 64 := s.fill_lt
  have hwait := s.length_waiting
  unfold padAndCompress
  rw [← HashState.waiting]
  by_cases h : 56 ≤ s.fill
  · -- The zeros of the padding fill the first block and the first 56 bytes of the second.
    have htwo : paddedBlocks s.fill = 1 + 1 := if_pos h
    have hzeros : (119 - s.fill) % 64 = (64 - (s.fill + 1)) + 56 := by omega
    have hsplit : s.waiting ++ padding s.fill (s.len * 8) =
        (s.waiting ++ [0x80] ++ List.replicate (64 - (s.fill + 1)) 0x00) ++
          (List.replicate 56 0x00 ++ be64 (s.len * 8)) := by
      simp only [padding, hzeros, List.replicate_add, List.append_assoc]
    have hfirst : (s.waiting ++ [0x80] ++ List.replicate (64 - (s.fill + 1)) (0x00 : Byte)).length = 64 := by
      simp only [List.length_append, List.length_replicate, List.length_singleton, hwait]
      omega
    rw [if_pos h, htwo, hsplit, compressBlocks_append 1 1 _ _ _ hfirst, compressBlocks_one _ hfirst,
      compressBlocks_one _ rfl]
  · have hone : paddedBlocks s.fill = 1 := if_neg h
    have hzeros : (119 - s.fill) % 64 = 56 - (s.fill + 1) := by omega
    have hlast : (s.waiting ++ padding s.fill (s.len * 8)).length = 64 := by
      rw [List.length_append, hwait, add_length_padding hfill, hone]
    rw [if_neg h, hone, compressBlocks_one _ hlast, padding, hzeros]
    simp only [List.append_assoc]

/-- Compressing the padded message is compressing its whole blocks, then the bytes left over with their padding (R113). -/
theorem compressBlocks_padMessage (h : Vector Word 8) (m : List Byte) :
    compressBlocks ((padMessage m).length / 64) h (padMessage m) =
      compressBlocks (paddedBlocks (m.length % 64))
        (compressBlocks (m.length / 64) h (m.take (64 * (m.length / 64))))
        (m.drop (64 * (m.length / 64)) ++ padding (m.length % 64) (BitVec.ofNat 64 (8 * m.length))) := by
  have hpad := add_length_padding (Nat.mod_lt m.length (by decide)) (BitVec.ofNat 64 (8 * m.length))
  have hcount : (padMessage m).length / 64 = m.length / 64 + paddedBlocks (m.length % 64) := by
    rw [padMessage_eq, List.length_append]
    omega
  have hwhole : (m.take (64 * (m.length / 64))).length = 64 * (m.length / 64) :=
    List.length_take_of_le (Nat.mul_div_le _ _)
  rw [hcount, ← compressBlocks_append _ _ _ _ _ hwhole, ← List.append_assoc, List.take_append_drop, padMessage_eq]

/-- The hash state after a whole message: its whole blocks are compressed, and the waiting bytes are those behind them (R112). -/
theorem absorb_hashInit_fields (m : List Byte) :
    (absorb hashInit m).h = compressBlocks (m.length / 64) iv (m.take (64 * (m.length / 64))) ∧
      (absorb hashInit m).len = BitVec.ofNat 64 m.length ∧
      (absorb hashInit m).fill = m.length % 64 ∧
      (absorb hashInit m).waiting = m.drop (64 * (m.length / 64)) := by
  obtain ⟨b, habs, hrest⟩ := absorb_all m
  have hfill : (absorb hashInit m).fill = m.length % 64 := by
    rw [habs, HashState.fill, BitVec.toNat_ofNat, Nat.mod_mod_of_dvd _ (by decide)]
  refine ⟨by rw [habs], by rw [habs], hfill, ?_⟩
  rw [HashState.waiting, hfill, habs]
  exact hrest

/-- The chaining values agree at any length: `LEN` and the length of R113 wrap alike (spec/40_hash_primitive.md R120). -/
theorem padAndCompress_absorb_hashInit (m : List Byte) :
    padAndCompress (absorb hashInit m) = compressBlocks ((padMessage m).length / 64) iv (padMessage m) := by
  obtain ⟨hh, hlen, hfill, hwait⟩ := absorb_hashInit_fields m
  have hbits : BitVec.ofNat 64 m.length * 8 = BitVec.ofNat 64 (8 * m.length) := by
    rw [Nat.mul_comm, BitVec.ofNat_mul]
    rfl
  rw [padAndCompress_eq, compressBlocks_padMessage, hh, hlen, hfill, hwait, hbits]

end Sys2Proof.Machine

namespace Sys2Proof.HashPrimitive

open Sys2Proof Sys2Proof.Machine

/-- Settles O42: the whole blocks were compressed as they came, and `Digest32` pads the rest as the whole message is padded. -/
theorem hashIsSha256OfTheMessage : Obligations.HashIsSha256OfTheMessage :=
  fun m _ => congrArg serialize (padAndCompress_absorb_hashInit m)

/-- Settles O41: `Absorb` is a fold over the bytes. -/
theorem absorbingInPiecesIsAbsorbingAtOnce : Obligations.AbsorbingInPiecesIsAbsorbingAtOnce :=
  fun s as bs => (absorb_append s as bs).symm

end Sys2Proof.HashPrimitive
end

section
/-! The family 41_mac_engine.md: staging a key, building, feeding and consuming an instance, and the script of a MAC
(spec/41_mac_engine.md R140 to R149). -/

namespace Sys2Proof.Machine

/-! ### One operation on the state -/

/-- An operation answers once, and leaves the registers `regsAfter` gives. -/
theorem exec_of_regsAfter {i : Instr} {s : State} {r : Regs} (h : regsAfter i s.regs = r) :
    exec i s = .next { s with regs := r, answers := s.answers ++ [answerOf i s.regs] } :=
  h ▸ exec_eq i s

/-- In the error state only `CLEAR` changes registers (spec/60_exceptions.md R209). -/
theorem regsAfter_of_err {i : Instr} {r : Regs} (he : r.err ≠ .none) (hi : i ≠ .clear) : regsAfter i r = r := by
  cases i with
  | clear => exact absurd rfl hi
  | rdStatus | rdDigest0 | rdDigest1 | rdDigest2 | rdDigest3 | rdDigest4 | rdDigest5 | rdDigest6 | rdDigest7 => rfl
  | macNew | kdfStart | kdfLabel | final | pushKey | pushData | illegal => exact unlessError_err he

theorem exec_of_err {i : Instr} {s : State} (he : s.regs.err ≠ .none) (hi : i ≠ .clear) :
    exec i s = .next { s with answers := s.answers ++ [answerOf i s.regs] } :=
  exec_of_regsAfter (regsAfter_of_err he hi)

/-! ### The registers written out -/

/-- The bytes of a push at places `n`, `n + 1`, … of a buffer, by the number its data is (spec/20_memory.md R64). -/
theorem toBytes_at (d : WData) (n i : Nat) (old : Byte) :
    (if n ≤ i ∧ i < n + d.toBytes.length then d.toBytes.getD (i - n) 0x00 else old) =
      if n ≤ i ∧ i < n + d.size.bytes then BitVec.ofNat 8 (d.toNat / 2 ^ (8 * (i - n))) else old := by
  rw [toBytes_length]
  split
  next h => exact toBytes_getD d (i - n) (by omega)
  next => rfl

/-- `PushKey` writes the staging buffer only (spec/41_mac_engine.md R140). -/
theorem stageBytes_eq (bs : List Byte) (r : Regs) (hk : r.keylen.toNat ≤ 64) :
    stageBytes bs r = { r with
      keybuf := (stageBytes bs r).keybuf
      keylen := BitVec.ofNat 7 (min 64 (r.keylen.toNat + bs.length))
      keyovf := r.keyovf || decide (64 < r.keylen.toNat + bs.length) } := by
  obtain ⟨hlen, hovf, -⟩ := stageBytes_spec bs r hk
  have hlen' : (stageBytes bs r).keylen = BitVec.ofNat 7 (min 64 (r.keylen.toNat + bs.length)) := by
    rw [← hlen, BitVec.ofNat_toNat, BitVec.setWidth_eq]
  simp [Regs.ext_iff, hlen', hovf]

/-- A new instance of `MAC_NEW` has compressed its `ipad` block, and nothing waits (spec/41_mac_engine.md R142, R143). -/
theorem newInstance_mac_eq (kp : Vector Byte 64) :
    newInstance .mac kp [] = {
      phase := .mac, err := .none, digestValid := false, keyovf := false, keylen := 0
      keybuf := Vector.replicate 64 0x00
      opad := kp.map (fun b => b ^^^ 0x5c)
      ih := compress iv (kp.toList.map (fun b => b ^^^ 0x36))
      ibuf := Vector.replicate 64 0x00, ilen := 64
      digest := Vector.replicate 32 0x00 } := by
  rw [newInstance, List.append_nil, absorb_hashInit_block, xorPad, xorPad, Vector.toList_map]
  rfl

/-! ### The key of a script -/

/-- An empty staging buffer represents the empty string (I1 and I2 of spec/10_state.md R37). -/
theorem Regs.Inv.empty_staging {r : Regs} (hr : r.Inv) (hk : r.keylen = 0) :
    r.keyovf = false ∧ r.keybuf = pad64 [] := by
  constructor
  · by_contra h
    have hfull := hr.keyovf_full (Bool.eq_true_of_not_eq_false h)
    simp [hk] at hfull
  · rw [pad64_nil]
    ext i hi : 1
    rw [Vector.getElem_replicate]
    exact hr.keybuf_zero ⟨i, hi⟩ (by simp [hk])

/-- A key pushed into an empty staging buffer, then `MAC_NEW` (spec/41_mac_engine.md R140, R143, R149). -/
theorem regsAfterAll_pushKeys_macNew (ks : List WData) {r : Regs} (hr : r.Inv) (he : r.err = .none) (hk : r.keylen = 0) :
    regsAfterAll (ks.map .pushKey ++ [.macNew]) r =
      if (pushedBytes ks).length ≤ 64 then newInstance .mac (pad64 (pushedBytes ks)) [] else enterError .keyTooLong r := by
  obtain ⟨hovf, hbuf⟩ := hr.empty_staging hk
  obtain ⟨-, hovf', hbuf'⟩ := stage_pad (pushedBytes ks) [] r (by simp [hk]) (by simp [hovf]) (by simp [hbuf])
  have herr : (stageBytes (pushedBytes ks) r).err = .none := by simp [he]
  have hrun : regsAfterAll (ks.map .pushKey ++ [.macNew]) r = macNew (stageBytes (pushedBytes ks) r) := by
    rw [regsAfterAll_append, regsAfterAll_pushKeys, unlessError_none he, regsAfterAll_cons, regsAfterAll_nil, regsAfter,
      unlessError_none herr]
  rw [List.nil_append] at hovf' hbuf'
  rw [hrun]
  split
  next hle => rw [macNew_of_not_keyovf herr (by simpa [hovf'] using hle), hbuf', List.take_of_length_le hle]
  next hgt => exact macNew_of_keyovf (by simpa [hovf'] using hgt)

/-- Zero padding hides trailing zeros (spec/00_scope.md R8). -/
theorem pad64_append_zeros (k : List Byte) (j : Nat) : pad64 (k ++ List.replicate j 0x00) = pad64 k := by
  ext i hi : 1
  rw [pad64_getElem _ _ hi, pad64_getElem _ _ hi]
  by_cases h : i < k.length
  · rw [List.getD_append _ _ _ _ h]
  · rw [List.getD_append_right _ _ _ _ (by omega), List.getD_eq_default k _ (by omega), List.getD_eq_getElem?_getD,
      List.getElem?_getD_replicate_default_eq]

/-! ### The message of a script, and its tag -/

/-- A live instance fed by any pushes and consumed publishes the MAC of its key and its whole message
(spec/41_mac_engine.md R144 to R147). -/
theorem Represents.feedAll_consume (ds : List WData) {a : Abstract} {r : Regs} (h : Represents a r) (he : a.err = .none)
    (hp : a.phase ≠ .idle) :
    Represents
      { a with
        phase := .idle, key := [], message := [], tag := some (macValue a.key (a.message ++ pushedBytes ds)) }
      (regsAfterAll (ds.map .pushData ++ [.final]) r) := by
  induction ds generalizing a r with
  | nil =>
    have hfinal := (effect_regsAfter .final r).represents h
    simpa [Abstract.perform, he, hp, pushedBytes] using hfinal
  | cons d ds ih =>
    have hfed := (effect_regsAfter (.pushData d) r).represents h
    have hperform : a.perform (.pushData d) =
        { a with message := a.message ++ d.toBytes, phase := if a.phase = .kdfPath then .kdfKey else a.phase } := by
      simp [Abstract.perform, he, hp]
    rw [hperform] at hfed
    rw [pushedBytes_cons, ← List.append_assoc, List.map_cons, List.cons_append, regsAfterAll_cons]
    have hrest := ih hfed he (by dsimp only; split <;> simp [hp])
    exact hrest

/-- The operations of `TAG` (spec/30_encoding.md R98). -/
def tagReads : List Instr :=
  [.rdDigest0, .rdDigest1, .rdDigest2, .rdDigest3, .rdDigest4, .rdDigest5, .rdDigest6, .rdDigest7]

theorem tagLines_instr : tagLines.map Line.instr = tagReads.map some := rfl

/-- The words that `TAG` reads (spec/10_state.md R35). -/
def tagWords (r : Regs) : List Word := List.ofFn (digestWord r)

theorem length_tagWords (r : Regs) : (tagWords r).length = 8 := List.length_ofFn

theorem regsAfterAll_tagReads (r : Regs) : regsAfterAll tagReads r = r := rfl

theorem answersOf_tagReads (r : Regs) : answersOf tagReads r = (tagWords r).map okayRead := rfl

theorem toBytes_le32 (b0 b1 b2 b3 : Byte) : (WData.w (le32 b0 b1 b2 b3)).toBytes = [b0, b1, b2, b3] := by
  simp only [WData.toBytes, List.cons.injEq, and_true]
  refine ⟨?_, ?_, ?_, ?_⟩ <;> apply BitVec.eq_of_toNat_eq <;>
    rw [BitVec.extractLsb'_toNat, le32_toNat, Nat.shiftRight_eq_div_pow] <;> omega

/-- Unpacking the eight words gives the tag back, byte by byte. -/
theorem unpackWords_tagWords (r : Regs) : unpackWords (tagWords r) = r.digest.toList := by
  have hbytes (n : Fin 8) : (WData.w (digestWord r n)).toBytes = List.ofFn fun j : Fin 4 => r.digest[4 * n.val + j.val] :=
    toBytes_le32 _ _ _ _
  have hall : r.digest.toList = List.ofFn fun i : Fin (4 * 8) => r.digest[i.val] := by
    conv_lhs => rw [← Vector.ofFn_getElem (xs := r.digest), Vector.toList_ofFn]
  rw [hall, List.ofFn_mul', unpackWords, tagWords, List.flatMap, List.map_ofFn]
  exact congrArg (fun f => (List.ofFn f).flatten) (funext hbytes)

/-- A script whose operations are `is`, followed by `TAG`: the last eight answers are the words of `DIGEST`. -/
theorem run_issue_tag (ls : List Line) (is : List Instr) (h : ls.map Line.instr = is.map some) (s : State) :
    ∃ (t : State) (before : List Answer) (ws : List Word),
      Host.Core.run Sys2Proof.core (ls ++ tagLines).length (s.issue (ls ++ tagLines)) = .next t ∧
      t.regs = regsAfterAll is s.regs ∧
      t.answers = before ++ ws.map okayRead ∧ ws.length = 8 ∧ unpackWords ws = t.regs.digest.toList := by
  obtain ⟨t, ht, hr, ha⟩ := run_issue (ls ++ tagLines) (is ++ tagReads)
    (by rw [List.map_append, List.map_append, h, tagLines_instr]) s
  rw [regsAfterAll_append, regsAfterAll_tagReads] at hr
  rw [answersOf_append, answersOf_tagReads, ← hr, ← List.append_assoc] at ha
  exact ⟨t, _, _, ht, hr, ha, length_tagWords _, unpackWords_tagWords _⟩

/-- The operations of the MAC script (spec/30_encoding.md R98). -/
def macInstrs (ks ds : List WData) : List Instr :=
  (ks.map .pushKey ++ [.macNew]) ++ (ds.map .pushData ++ [.final])

theorem macLines_instr (ks ds : List WData) : (macLines ks ds).map Line.instr = (macInstrs ks ds).map some := by
  simp [macLines, macInstrs, Function.comp_def, Line.instr]

/-- After the MAC script the registers represent a finished tag: `MAC(k, m)` (spec/41_mac_engine.md R148). -/
theorem represents_macInstrs (ks ds : List WData) {r : Regs} (hr : r.Inv) (he : r.err = .none) (hk : r.keylen = 0)
    (hle : (pushedBytes ks).length ≤ 64) :
    Represents { Abstract.reset with tag := some (macValue (pushedBytes ks) (pushedBytes ds)) }
      (regsAfterAll (macInstrs ks ds) r) := by
  rw [macInstrs, regsAfterAll_append, regsAfterAll_pushKeys_macNew ks hr he hk, if_pos hle]
  exact (represents_start (pushedBytes ks) [] (by decide : Phase.mac ≠ .idle)).feedAll_consume ds rfl (by simp)

/-! ### The grouping of bytes into pushes -/

theorem regsAfterAll_pushData_congr {ds es : List WData} (h : pushedBytes ds = pushedBytes es) (r : Regs) :
    regsAfterAll (ds.map .pushData) r = regsAfterAll (es.map .pushData) r := by
  by_cases hd : ds = []
  · have hes : es = [] := pushedBytes_eq_nil.mp (h ▸ pushedBytes_eq_nil.mpr hd)
    rw [hd, hes]
  · have hes : es ≠ [] := fun hes => hd (pushedBytes_eq_nil.mp (h ▸ pushedBytes_eq_nil.mpr hes))
    rw [regsAfterAll_pushData ds r hd, regsAfterAll_pushData es r hes, h]

theorem regsAfterAll_pushKey_congr {ds es : List WData} (h : pushedBytes ds = pushedBytes es) (r : Regs) :
    regsAfterAll (ds.map .pushKey) r = regsAfterAll (es.map .pushKey) r := by
  rw [regsAfterAll_pushKeys, regsAfterAll_pushKeys, h]

/-- A script of one line for each push runs one operation for each push. -/
theorem run_issue_pushes {line : WData → Line} {op : WData → Instr}
    (h : ∀ ds : List WData, (ds.map line).map Line.instr = (ds.map op).map some) (ds : List WData) (s : State) :
    ∃ t, Host.Core.run Sys2Proof.core ds.length (s.issue (ds.map line)) = .next t ∧
      State.regs t = regsAfterAll (ds.map op) s.regs := by
  obtain ⟨t, ht, hr, -⟩ := run_issue (ds.map line) (ds.map op) (h ds) s
  exact ⟨t, by rwa [List.length_map] at ht, hr⟩

/-- Pushes with the same effect on all registers end with the same registers. -/
theorem run_issue_pushes_congr {line : WData → Line} {op : WData → Instr}
    (h : ∀ ds : List WData, (ds.map line).map Line.instr = (ds.map op).map some) {ds es : List WData}
    (hsame : ∀ r, regsAfterAll (ds.map op) r = regsAfterAll (es.map op) r) (s : State) :
    ∃ t u, Host.Core.run Sys2Proof.core ds.length (s.issue (ds.map line)) = .next t ∧
      Host.Core.run Sys2Proof.core es.length (s.issue (es.map line)) = .next u ∧ State.regs t = State.regs u := by
  obtain ⟨t, ht, htr⟩ := run_issue_pushes h ds s
  obtain ⟨u, hu, hur⟩ := run_issue_pushes h es s
  exact ⟨t, u, ht, hu, by rw [htr, hur, hsame]⟩

end Sys2Proof.Machine

namespace Sys2Proof.MacEngine

open Sys2Proof Sys2Proof.Machine

/-- Settles O34: on either port the registers after pushes depend on the pushed string only. -/
theorem pushGroupingDoesNotMatter : Obligations.PushGroupingDoesNotMatter :=
  fun _ _ h s => ⟨run_issue_pushes_congr dataLines_instr (regsAfterAll_pushData_congr h) s,
    run_issue_pushes_congr keyLines_instr (regsAfterAll_pushKey_congr h) s⟩

/-- Settles O36: the registers after the script represent the tag, and `TAG` reads `DIGEST` back. -/
theorem macScriptComputesTheMac : Obligations.MacScriptComputesTheMac := by
  intro ks ds s hs he hk _ hle _
  obtain ⟨t, before, ws, ht, hr, ha, hlen, hws⟩ :=
    run_issue_tag (macLines ks ds) (macInstrs ks ds) (macLines_instr ks ds) s
  have hrep := hr ▸ represents_macInstrs ks ds hs he hk hle
  exact ⟨t, macValue (pushedBytes ks) (pushedBytes ds), before, ws, ht, if_pos hle, hrep.err, hrep.phase,
    hrep.digestValid, hrep.digest, ha, hlen, by rw [hws, hrep.digest]; rfl⟩

/-- Settles O15: the closed form of staging, with the bytes of the push as numbers. -/
theorem pushKeyStagesTheBytes : Obligations.PushKeyStagesTheBytes := by
  refine ⟨fun _ => rfl, fun d s hk => ⟨fun he => ⟨(stageBytes d.toBytes s.regs).keybuf, fun i => ?_, ?_⟩,
    fun he => exec_of_err he (by simp)⟩⟩
  · obtain ⟨-, -, hbuf⟩ := stageBytes_spec d.toBytes s.regs hk
    exact (hbuf i i.isLt).trans (toBytes_at d _ _ _)
  · rw [← toBytes_length]
    exact exec_of_regsAfter ((unlessError_none he).trans (stageBytes_eq d.toBytes s.regs hk))

/-- Settles O16: by the registers of a new instance, written out. -/
theorem macNewBuildsTheInstance : Obligations.MacNewBuildsTheInstance := by
  refine ⟨rfl, fun s => ⟨fun he hk => exec_of_regsAfter ?_, fun he hk => exec_of_regsAfter ?_,
    fun he => exec_of_err he (by simp)⟩⟩
  · rw [regsAfter, unlessError_none he, macNew_of_not_keyovf he hk, newInstance_mac_eq]
  · rw [regsAfter, unlessError_none he, macNew_of_keyovf hk, enterError_eq]

/-- Settles O17: a live instance is fed by `Absorb`, whose short case says where the bytes wait. -/
theorem pushDataFeedsTheInstance : Obligations.PushDataFeedsTheInstance := by
  refine ⟨fun _ => rfl, fun d s => ⟨fun he hp => ⟨absorb s.regs.inner d.toBytes, rfl, ?_, fun hshort => ?_, ?_⟩,
    fun he hp => exec_of_regsAfter ?_, fun he => exec_of_err he (by simp)⟩⟩
  · rw [absorb_len, toBytes_length, Regs.inner_len]
  · obtain ⟨hh, hbuf⟩ := absorb_short s.regs.inner d.toBytes (by rwa [toBytes_length])
    exact ⟨hh, fun i => (hbuf i i.isLt).trans (toBytes_at d _ _ _)⟩
  · exact exec_of_regsAfter ((unlessError_none he).trans (feedData_of_live hp))
  · rw [regsAfter, unlessError_none he, feedData_of_idle hp, enterError_eq]

/-- Settles O35: at most 64 pushed bytes build an instance, more raise `KeyTooLong`. -/
theorem keysOverSixtyFourBytesAreRefused : Obligations.KeysOverSixtyFourBytesAreRefused := by
  intro ks s hs he hk
  obtain ⟨t, ht, hr, -⟩ := run_issue (ks.map .key ++ [.cmd .macNew]) (ks.map .pushKey ++ [.macNew])
    (by rw [List.map_append, List.map_append, keyLines_instr]; rfl) s
  rw [regsAfterAll_pushKeys_macNew ks hs he hk] at hr
  rw [List.length_append, List.length_map] at ht
  refine ⟨t, ht, ?_, ?_⟩
  · rw [hr, apply_ite Regs.err, newInstance_err, enterError_err]
  · rw [hr, apply_ite Regs.phase, newInstance_phase, enterError_phase]

/-- Settles O40: both keys have the same padded key. -/
theorem trailingZerosOfAKeyAreInvisible : Obligations.TrailingZerosOfAKeyAreInvisible := by
  intro k m j h
  rw [mac, mac, if_pos (by simpa using h), if_pos (by omega), macValue, macValue, pad64_append_zeros]

/-- Settles O18: by the registers of a consumed instance. -/
theorem finalPublishesTheTag : Obligations.FinalPublishesTheTag := by
  refine ⟨rfl, fun s => ⟨fun he hp => exec_of_regsAfter ?_, fun he hp => exec_of_regsAfter ?_,
    fun he => exec_of_err he (by simp)⟩⟩
  · rw [regsAfter, unlessError_none he, finalTag_of_live hp, consumedInstance, instanceTag_eq]
    rfl
  · rw [regsAfter, unlessError_none he, finalTag_of_idle hp, enterError_eq]

end Sys2Proof.MacEngine
end

section
/-! The family 42_kdf_controller.md: starting a chain, folding a label into it, the phase machine, and the script of a KDF
(spec/42_kdf_controller.md R170 to R176). -/

namespace Sys2Proof.Machine

/-! ### The registers written out -/

/-- `PHASE` is the only register of a new instance that says which command built it. -/
theorem newInstance_eq_mac (p : Phase) (kp : Vector Byte 64) (m : List Byte) :
    newInstance p kp m = { newInstance .mac kp m with phase := p } := rfl

/-- The outer pad of `DOMAIN`, as R170 writes it out. -/
theorem toList_opad_domain :
    (xorPad opadByte (pad64 domain)).toList =
      [0x0a, 0x11, 0x39, 0x2f, 0x2f, 0x7c, 0x1d, 0x19, 0x1d, 0x18, 0x7c, 0x17, 0x18, 0x1a] ++
        List.replicate 50 0x5c := by
  decide +kernel

/-- The inner pad of `DOMAIN`, as R170 writes it out. -/
theorem toList_ipad_domain :
    (pad64 domain).toList.map (fun b => b ^^^ 0x36) =
      [0x60, 0x7b, 0x53, 0x45, 0x45, 0x16, 0x77, 0x73, 0x77, 0x72, 0x16, 0x7d, 0x72, 0x70] ++
        List.replicate 50 0x36 := by
  decide +kernel

/-- Bytes fed to an empty partial block wait at its front, with zeros behind them (spec/40_hash_primitive.md R112). -/
theorem absorb_of_empty {s : HashState} (hlen : s.len.toNat % 64 = 0) (hbuf : s.buf = Vector.replicate 64 0x00)
    {bs : List Byte} (hbs : bs.length < 64) :
    ∃ buf : Vector Byte 64, buf.toList = bs ++ List.replicate (64 - bs.length) 0x00 ∧
      absorb s bs = ⟨s.h, buf, s.len + BitVec.ofNat 64 bs.length⟩ := by
  obtain ⟨hh, hat⟩ := absorb_short s bs (by omega)
  refine ⟨(absorb s bs).buf, List.ext_getElem (by simp; omega) fun i hi _ => ?_, by rw [← absorb_len, ← hh]⟩
  rw [Vector.getElem_toList, hat i (by simpa using hi), hlen, hbuf, Vector.getElem_replicate, List.getElem_append]
  by_cases hlt : i < bs.length
  · rw [if_pos (by omega), dif_pos hlt, Nat.sub_zero, List.getD_eq_getElem _ _ hlt]
  · rw [if_neg (by omega), dif_neg hlt, List.getElem_replicate]

/-- A new instance fed a tag has compressed its `ipad` block, and the tag's 32 bytes wait (spec/42_kdf_controller.md
R171). -/
theorem newInstance_kdfPath_tag (kp : Vector Byte 64) (v : Vector Byte 32) :
    ∃ ib : Vector Byte 64, ib.toList = v.toList ++ List.replicate 32 0x00 ∧
      newInstance .kdfPath kp v.toList = {
        phase := .kdfPath, err := .none, digestValid := false, keyovf := false, keylen := 0
        keybuf := Vector.replicate 64 0x00
        opad := kp.map (fun b => b ^^^ 0x5c)
        ih := compress iv (kp.toList.map (fun b => b ^^^ 0x36))
        ibuf := ib, ilen := 96
        digest := Vector.replicate 32 0x00 } := by
  have hv : v.toList.length = 32 := v.length_toList
  obtain ⟨ib, hib, habs⟩ := absorb_of_empty (s := absorb hashInit (xorPad ipadByte kp).toList)
    (by simp [absorb_hashInit_block]) (by rw [absorb_hashInit_block]) (hv.trans_lt (by decide))
  rw [hv] at hib
  refine ⟨ib, hib, ?_⟩
  rw [newInstance, absorb_append, habs, absorb_hashInit_block, hv, xorPad, xorPad, Vector.toList_map]
  rfl

/-! ### The script of a KDF (spec/30_encoding.md R98) -/

/-- The operations of one label of the script. -/
def labelInstrs (p : List WData) : List Instr := p.map .pushKey ++ [.kdfLabel]

/-- The operations of the script behind `KDF_START`. -/
def chainInstrs (ps : List (List WData)) (ds : List WData) : List Instr :=
  ps.flatMap labelInstrs ++ (ds.map .pushData ++ [.final])

theorem labelLines_instr (p : List WData) : (labelLines p).map Line.instr = (labelInstrs p).map some := by
  rw [labelLines, labelInstrs, List.map_append, List.map_append, keyLines_instr]
  rfl

theorem kdfLines_instr (ps : List (List WData)) (ds : List WData) :
    (kdfLines ps ds).map Line.instr = (.kdfStart :: chainInstrs ps ds).map some := by
  have hlabels : (ps.flatMap labelLines).map Line.instr = (ps.flatMap labelInstrs).map some := by
    simp only [List.map_flatMap, labelLines_instr]
  simp [kdfLines, chainInstrs, hlabels, Function.comp_def, Line.instr]

/-- A label of at most 64 bytes, however it is pushed, becomes the key of the next instance, whose message is the tag of the
instance before (spec/42_kdf_controller.md R171, R174). -/
theorem Represents.foldLabel {p : List WData} (hle : (pushedBytes p).length ≤ 64) {k m : List Byte} {r : Regs}
    (h : Represents (.start .kdfPath k m) r) :
    Represents (.start .kdfPath (pushedBytes p) (macValue k m).toList) (regsAfterAll (labelInstrs p) r) := by
  have hlabel := (effect_regsAfter .kdfLabel _).represents (h.stage (pushedBytes p))
  rw [labelInstrs, regsAfterAll_append, regsAfterAll_pushKeys, unlessError_none h.err]
  simpa [Abstract.perform, hle.not_gt] using hlabel

/-- From an instance of a chain, the labels and the caller's key lead to the value that the chain has from that instance
(spec/00_scope.md R11). -/
theorem Represents.chain {ps : List (List WData)} (ds : List WData) (hps : ∀ p ∈ ps, (pushedBytes p).length ≤ 64)
    {k m : List Byte} (hk : k.length ≤ 64) {r : Regs} (h : Represents (.start .kdfPath k m) r) :
    ∃ v, kdfFrom k m (pushedBytes ds) (ps.map pushedBytes) = some v ∧
      Represents { Abstract.reset with tag := some v } (regsAfterAll (chainInstrs ps ds) r) := by
  induction ps generalizing k m r with
  | nil => exact ⟨macValue k (m ++ pushedBytes ds), if_pos hk, h.feedAll_consume ds rfl (by simp)⟩
  | cons p ps ih =>
    obtain ⟨hp, hps⟩ := List.forall_mem_cons.mp hps
    obtain ⟨v, hv, hrep⟩ := ih hps hp (h.foldLabel hp)
    have hmac : mac k m = some (macValue k m) := if_pos hk
    refine ⟨v, ?_, ?_⟩
    · rw [List.map_cons, kdfFrom, hmac]
      exact hv
    · rw [chainInstrs, List.flatMap_cons, List.append_assoc, regsAfterAll_append]
      exact hrep

/-- `KDF_START` begins the chain at the instance keyed by `DOMAIN`, whatever the registers held. -/
theorem represents_kdfStart {r : Regs} (he : r.err = .none) :
    Represents (.start .kdfPath domain []) (regsAfter .kdfStart r) := by
  rw [regsAfter, unlessError_none he, kdfStart_eq he]
  exact represents_start domain [] (by decide)

end Sys2Proof.Machine

namespace Sys2Proof.KdfController

open Sys2Proof Sys2Proof.Machine

/-- Settles O37: by induction over the labels, each of which hands its instance's tag to the next; `TAG` reads `DIGEST`
back. -/
theorem kdfScriptComputesTheKdf : Obligations.KdfScriptComputesTheKdf := by
  intro ps ds s he hps _
  obtain ⟨t, before, ws, ht, hr, ha, hlen, hws⟩ :=
    run_issue_tag (kdfLines ps ds) (.kdfStart :: chainInstrs ps ds) (kdfLines_instr ps ds) s
  obtain ⟨v, hv, hrep⟩ := (represents_kdfStart he).chain ds hps (by decide)
  rw [← regsAfterAll_cons, ← hr] at hrep
  exact ⟨t, v, before, ws, ht, hv, hrep.err, hrep.phase, hrep.digestValid, hrep.digest, ha, hlen,
    by rw [hws, hrep.digest]; rfl⟩

/-- Settles O19: the registers of a new instance under `DOMAIN`, with its pads written out. -/
theorem kdfStartBuildsTheDomainInstance : Obligations.KdfStartBuildsTheDomainInstance := by
  refine ⟨rfl, fun s => ⟨fun he => ⟨_, toList_opad_domain, exec_of_regsAfter ?_⟩, fun he => exec_of_err he (by simp)⟩⟩
  rw [regsAfter, unlessError_none he, kdfStart_eq he, newInstance_eq_mac, newInstance_mac_eq, toList_ipad_domain]
  rfl

/-- Settles O20: the equation of `KDF_LABEL` for each phase, and the registers of a new instance in which a tag waits. -/
theorem kdfLabelFoldsTheLabel : Obligations.KdfLabelFoldsTheLabel := by
  refine ⟨rfl, fun s => ⟨fun he hp hk => ?_, fun he hp => exec_of_regsAfter ?_, fun he hp => exec_of_regsAfter ?_,
    fun he hp hk => exec_of_regsAfter ?_, fun he => exec_of_err he (by simp)⟩⟩
  · obtain ⟨ib, hib, hregs⟩ := newInstance_kdfPath_tag s.regs.keybuf (instanceTag s.regs)
    refine ⟨ib, by rw [hib, instanceTag_eq]; rfl, exec_of_regsAfter ?_⟩
    rw [regsAfter, unlessError_none he, kdfLabel_of_kdfPath he hp hk, hregs]
  · rw [regsAfter, unlessError_none he, kdfLabel_of_idle hp, enterError_eq]
  · rw [regsAfter, unlessError_none he, kdfLabel_of_late hp, enterError_eq]
  · rw [regsAfter, unlessError_none he, kdfLabel_of_keyovf hp hk, enterError_eq]

/-- Settles O28: effect by effect; the conditions of an effect select its rows of the table. -/
theorem phaseTransitionsAreThoseOfTheTable : Obligations.PhaseTransitionsAreThoseOfTheTable := by
  intro i s t he h
  have heffect := effect_of_exec h
  clear h
  generalize t.regs = r' at heffect ⊢
  generalize s.regs = r at he heffect ⊢
  cases heffect with
  | ignored hne _ => exact absurd he hne
  | statusRead => simp [he]
  | digestRead n => fin_cases n <;> simp [readDigest, he]
  | cleared => simp
  | raised _ hi =>
    cases hi with
    | macNew hk => simp [hk]
    | kdfLabel hp hk => simp [hp, hk]
    | kdfLabelIdle hp => simp [hp]
    | pushData d hp => simp [hp]
    | final hp => simp [hp]
    | kdfLabelLate hp => rcases hp with hp | hp <;> simp [hp]
    | illegal w => simp
  | staged d _ => simp [he]
  | built _ hi =>
    cases hi with
    | macNew hk => simp [hk]
    | kdfStart => simp
    | kdfLabel hp hk => simp [hp, hk]
  | fed d _ hp =>
    cases hphase : r.phase with
    | idle => exact absurd hphase hp
    | mac | kdfPath | kdfKey => simp [fedInstance, he, hphase]
  | consumed _ hp =>
    cases hphase : r.phase with
    | idle => exact absurd hphase hp
    | mac | kdfPath | kdfKey => simp [consumedInstance, he]

/-- Settles O38: both build the instance under the padded `DOMAIN`, and differ in its phase. -/
theorem kdfStartIsMacNewUnderDomain : Obligations.KdfStartIsMacNewUnderDomain := by
  intro ks s hs he hk _ hdomain
  obtain ⟨t, ht, hr, -⟩ := run_issue (ks.map .key ++ [.cmd .macNew]) (ks.map .pushKey ++ [.macNew])
    (by rw [List.map_append, List.map_append, keyLines_instr]; rfl) s
  rw [regsAfterAll_pushKeys_macNew ks hs he hk, hdomain, if_pos (by decide)] at hr
  rw [List.length_append, List.length_map] at ht
  refine ⟨t, _, ht, exec_eq .kdfStart s, hr.trans ?_⟩
  rw [State.addAnswer_regs, State.setRegs_regs, regsAfter, unlessError_none he, kdfStart_eq he]
  rfl

end Sys2Proof.KdfController
end

section
/-! The family 43_system_commands.md: the word of `CLEAR` and what `CLEAR` does (spec/43_system_commands.md R190). -/

namespace Sys2Proof

/-- Two `CMD` writes are the same transaction exactly when they write the same word. -/
theorem cmdWrite_inj {v w : Word} : cmdWrite v = cmdWrite w ↔ v = w := by
  simp only [cmdWrite, Transaction.write.injEq, WData.w.injEq, true_and]

/-- The one `CMD` word that decodes to `CLEAR`. -/
theorem decode_cmdWrite_eq_clear_iff (w : Word) : decode (cmdWrite w) = .ok .clear ↔ w = 0x00000005 := by
  constructor
  · intro h
    exact (cmdWrite_inj.mp (encode_of_decode h)).symm
  · rintro rfl
    exact decode_encode (i := .clear) rfl

end Sys2Proof

namespace Sys2Proof.SystemCommands

open Sys2Proof Sys2Proof.Machine

/-- Settles O21: what decodes is the encoding of its operation, and `CLEAR` leaves the reset registers. -/
theorem clearGivesTheResetRegisters : Obligations.ClearGivesTheResetRegisters :=
  ⟨decode_cmdWrite_eq_clear_iff, fun _ => exec_of_regsAfter rfl⟩

end Sys2Proof.SystemCommands
end

section
/-! The family 60_exceptions.md: what raises an engine error, what its entry leaves, and the error state
(spec/60_exceptions.md R201, R203, R209, R211, R217). -/

namespace Sys2Proof.Machine

/-! ### What raises an error, code by code (spec/60_exceptions.md R201, R211) -/

theorem raises_keyTooLong_iff {r : Regs} {i : Instr} :
    Raises r i .keyTooLong ↔ r.keyovf = true ∧ (i = .macNew ∨ (i = .kdfLabel ∧ r.phase = .kdfPath)) := by
  constructor
  · intro h
    cases h with
    | macNew hk => exact ⟨hk, .inl rfl⟩
    | kdfLabel hp hk => exact ⟨hk, .inr ⟨rfl, hp⟩⟩
  · rintro ⟨hk, rfl | ⟨rfl, hp⟩⟩
    · exact .macNew hk
    · exact .kdfLabel hp hk

theorem raises_macInstanceReused_iff {r : Regs} {i : Instr} :
    Raises r i .macInstanceReused ↔ r.phase = .idle ∧ (i = .final ∨ i = .kdfLabel ∨ ∃ d, i = .pushData d) := by
  constructor
  · intro h
    cases h with
    | final hp => exact ⟨hp, .inl rfl⟩
    | kdfLabelIdle hp => exact ⟨hp, .inr (.inl rfl)⟩
    | pushData d hp => exact ⟨hp, .inr (.inr ⟨d, rfl⟩)⟩
  · rintro ⟨hp, rfl | rfl | ⟨d, rfl⟩⟩
    · exact .final hp
    · exact .kdfLabelIdle hp
    · exact .pushData d hp

theorem raises_illegalCommand_iff {r : Regs} {i : Instr} : Raises r i .illegalCommand ↔ ∃ w, i = .illegal w := by
  constructor
  · intro h
    cases h with
    | illegal w => exact ⟨w, rfl⟩
  · rintro ⟨w, rfl⟩
    exact .illegal w

theorem raises_sequenceError_iff {r : Regs} {i : Instr} :
    Raises r i .sequenceError ↔ i = .kdfLabel ∧ (r.phase = .mac ∨ r.phase = .kdfKey) := by
  constructor
  · intro h
    cases h with
    | kdfLabelLate hp => exact ⟨rfl, hp⟩
  · rintro ⟨rfl, hp⟩
    exact .kdfLabelLate hp

/-! ### The error entry (spec/60_exceptions.md R203) -/

/-- An operation leaves the registers alone, raises an error, or leaves none latched. -/
theorem Effect.err_cases {r r' : Regs} {i : Instr} (h : Effect r i r') :
    r' = r ∨ (r.err = .none ∧ ∃ e, Raises r i e ∧ r' = enterError e r) ∨ r'.err = .none := by
  cases h with
  | ignored | statusRead | digestRead => exact .inl rfl
  | raised he hi => exact .inr (.inl ⟨he, _, hi, rfl⟩)
  | cleared | built => exact .inr (.inr rfl)
  | staged d he => exact .inr (.inr ((stageBytes_err _ r).trans he))
  | fed d he hp => exact .inr (.inr he)
  | consumed he hp => exact .inr (.inr he)

/-- What raises an error does nothing else (spec/60_exceptions.md R203). -/
theorem regsAfter_of_raises {r : Regs} {i : Instr} {e : ErrCode} (he : r.err = .none) (h : Raises r i e) :
    regsAfter i r = enterError e r := by
  cases h with
  | macNew hk => exact (unlessError_none he).trans (macNew_of_keyovf hk)
  | kdfLabel hp hk => exact (unlessError_none he).trans (kdfLabel_of_keyovf hp hk)
  | kdfLabelIdle hp => exact (unlessError_none he).trans (kdfLabel_of_idle hp)
  | pushData d hp => exact (unlessError_none he).trans (feedData_of_idle hp)
  | final hp => exact (unlessError_none he).trans (finalTag_of_idle hp)
  | kdfLabelLate hp => exact (unlessError_none he).trans (kdfLabel_of_late hp)
  | illegal w => exact unlessError_none he

/-- From `ERR = 0` an operation leaves the code of the error it raises (spec/60_exceptions.md R201). -/
theorem err_iff_raises {i : Instr} {s t : State} {e : ErrCode} (he : s.regs.err = .none) (h : exec i s = .next t)
    (hne : e ≠ .none) : t.regs.err = e ↔ Raises s.regs i e := by
  constructor
  · rintro rfl
    obtain hkept | ⟨-, e, hi, hentered⟩ | hnone := (effect_of_exec h).err_cases
    · exact absurd (hkept ▸ he) hne
    · exact hentered ▸ hi
    · exact absurd hnone hne
  · intro hi
    rw [exec_of_regsAfter (regsAfter_of_raises he hi)] at h
    cases h
    rfl

/-- Registers `r'` come from `r` with every other register reset if their error is new, and unchanged if it was latched
before. -/
def ErrorLatched (r r' : Regs) : Prop :=
  r'.err ≠ .none →
    (r.err = .none → r' = { Regs.reset with err := r'.err }) ∧ (r.err ≠ .none → r' = r)

theorem errorLatched_self (r : Regs) : ErrorLatched r r :=
  fun hne => ⟨fun he => absurd he hne, fun _ => rfl⟩

theorem errorLatched_of_no_err {r r' : Regs} (h : r'.err = .none) : ErrorLatched r r' :=
  fun hne => absurd h hne

theorem errorLatched_enterError {r : Regs} (he : r.err = .none) (e : ErrCode) : ErrorLatched r (enterError e r) :=
  fun _ => ⟨fun _ => rfl, fun hne => absurd he hne⟩

theorem Effect.errorLatched {r r' : Regs} {i : Instr} (h : Effect r i r') : ErrorLatched r r' := by
  obtain rfl | ⟨he, e, -, rfl⟩ | hnone := h.err_cases
  · exact errorLatched_self _
  · exact errorLatched_enterError he e
  · exact errorLatched_of_no_err hnone

/-! ### The error state (spec/60_exceptions.md R209) -/

/-- I7 of spec/10_state.md R37: the error state holds the code and nothing else. -/
theorem Regs.Inv.eq_enterError {r : Regs} (hr : r.Inv) (he : r.err ≠ .none) : r = enterError r.err r :=
  hr.err_reset he

theorem statusWord_enterError_toNat (e : ErrCode) (r : Regs) :
    (statusWord (enterError e r)).toNat = 16 * e.code.toNat := by
  rw [statusWord_toNat]
  simp [Phase.code]

theorem digestWord_enterError (e : ErrCode) (r : Regs) (n : Fin 8) : digestWord (enterError e r) n = 0x00000000 := by
  simp [digestWord, le32]

theorem readDigest_ne_clear (n : Fin 8) : readDigest n ≠ .clear := by
  fin_cases n <;> simp [readDigest]

theorem answerOf_readDigest (n : Fin 8) (r : Regs) : answerOf (readDigest n) r = okayRead (digestWord r n) := by
  fin_cases n <;> rfl

end Sys2Proof.Machine

namespace Sys2Proof.Exceptions

open Sys2Proof Sys2Proof.Machine

/-- Settles O25: the gate of R209 for each operation, and by I7 the reads see the code and zeros only. -/
theorem errorStateIgnoresAllButClear : Obligations.ErrorStateIgnoresAllButClear := by
  intro s hs he
  have hregs := hs.eq_enterError he
  refine ⟨fun i hi => ⟨answerOf i s.regs, answerOf_resp i s.regs, exec_of_err he hi⟩,
    ⟨statusWord s.regs, ?_, exec_of_err he (by simp)⟩, fun n => ?_, ⟨_, exec_eq .clear s, rfl⟩,
    fun rest => ⟨hardwareReset (s.setInbox rest), rfl, rfl⟩⟩
  · exact (congrArg (fun r => (statusWord r).toNat) hregs).trans (statusWord_enterError_toNat s.regs.err s.regs)
  · have hzero : digestWord s.regs n = 0x00000000 := hregs ▸ digestWord_enterError s.regs.err s.regs n
    rw [exec_of_err he (readDigest_ne_clear n), answerOf_readDigest, hzero, okayRead]

/-- Settles O26: the code left is the one raised, and the causes of each code are those of R201 and R171. -/
theorem engineErrorsHaveExactlyTheirCauses : Obligations.EngineErrorsHaveExactlyTheirCauses := by
  intro i s t he h
  refine ⟨(err_iff_raises he h (by simp)).trans raises_keyTooLong_iff,
    (err_iff_raises he h (by simp)).trans raises_macInstanceReused_iff,
    (err_iff_raises he h (by simp)).trans raises_illegalCommand_iff,
    (err_iff_raises he h (by simp)).trans raises_sequenceError_iff, fun hne => ?_⟩
  exact ((effect_of_exec h).errorLatched hne).1 he

/-- Settles O27: a step leaves the registers, resets them or has the effect of one operation on them. -/
theorem enteringAnErrorWipesTheCore : Obligations.EnteringAnErrorWipesTheCore :=
  fun s _ h => step_keeps (P := ErrorLatched s.regs) h (errorLatched_self s.regs) (errorLatched_of_no_err rfl)
    fun _ _ he => he.errorLatched

/-- Settles O44: a platform steps one place of its list of COREs. -/
theorem coresShareNoState : Obligations.CoresShareNoState :=
  fun p _ _ hne => List.getElem?_modify_ne Slot.advance p.slots hne.symm

end Sys2Proof.Exceptions
end

section
/-! The family 70_reset_and_hazards.md: the hardware reset, a driver's test of `STATUS`, and runs of any length
(spec/70_reset_and_hazards.md R230 to R234, R246). -/

namespace Sys2Proof.Machine

/-! ### Runs (spec/70_reset_and_hazards.md R246) -/

/-- A run ends in a next state, and keeps what every step keeps. -/
theorem run_keeps {P : State → Prop} (hP : ∀ s s', P s → step s = .next s' → P s') (n : Nat) {s : State} (hs : P s) :
    ∃ t, Host.Core.run Sys2Proof.core n s = .next t ∧ P t := by
  induction n generalizing s with
  | zero => exact ⟨s, rfl, hs⟩
  | succ n ih =>
    obtain ⟨s', h⟩ := step_next s
    rw [run_step n h]
    exact ih (hP s s' hs h)

/-! ### The low byte of `STATUS` (spec/70_reset_and_hazards.md R234) -/

theorem Phase.code_eq_zero_iff (p : Phase) : p.code = 0 ↔ p = .idle := by cases p <;> decide

/-- `STATUS[7:0]` as a number (spec/10_state.md R32). -/
theorem extractLsb'_statusWord_low_toNat (r : Regs) :
    ((statusWord r).extractLsb' 0 8).toNat =
      r.phase.code.toNat + 4 * r.digestValid.toNat + 8 * r.keyovf.toNat + 16 * r.err.code.toNat := by
  have hphase := r.phase.code.isLt
  have hvalid := r.digestValid.toNat_lt
  have hovf := r.keyovf.toNat_lt
  have herr := r.err.code.isLt
  rw [BitVec.extractLsb'_toNat, statusWord_toNat, Nat.shiftRight_zero]
  omega

/-- `STATUS[7:0]` after a finished tag: bit 2 alone, or with the overflow in bit 3. -/
theorem extractLsb'_statusWord_low_eq_iff (r : Regs) (ovf : Bool) :
    (statusWord r).extractLsb' 0 8 = BitVec.ofNat 8 (4 + 8 * ovf.toNat) ↔
      r.phase = .idle ∧ r.digestValid = true ∧ r.keyovf = ovf ∧ r.err = .none := by
  have hword : (BitVec.ofNat 8 (4 + 8 * ovf.toNat)).toNat = 4 + 8 * ovf.toNat := by cases ovf <;> rfl
  rw [← BitVec.toNat_inj, extractLsb'_statusWord_low_toNat, hword]
  constructor
  · intro h
    have hphase := r.phase.code.isLt
    have hvalid := r.digestValid.toNat_lt
    have hovf := r.keyovf.toNat_lt
    have hovf' := ovf.toNat_lt
    have hp : r.phase.code = 0 := BitVec.eq_of_toNat_eq (show r.phase.code.toNat = 0 by omega)
    have hv : r.digestValid.toNat = 1 := by omega
    have hk : r.keyovf = ovf := by rw [Bool.eq_iff_iff, ← Bool.toNat_eq_one, ← Bool.toNat_eq_one]; omega
    have he : r.err.code = 0 := BitVec.eq_of_toNat_eq (show r.err.code.toNat = 0 by omega)
    exact ⟨r.phase.code_eq_zero_iff.mp hp, Bool.toNat_eq_one.mp hv, hk, r.err.code_eq_zero_iff.mp he⟩
  · rintro ⟨hp, hv, rfl, he⟩
    simp [hp, hv, he, Phase.code, ErrCode.code]

/-! ### The hardware reset (spec/70_reset_and_hazards.md R230 to R232) -/

theorem step_reset {s : State} {rest : List HostEvent} (h : s.inbox = .reset :: rest) :
    step s = .next (hardwareReset (s.setInbox rest)) := by
  simp only [step, h, perform]

theorem step_resetDuring {s : State} {t : Transaction} {rest : List HostEvent} (h : s.inbox = .resetDuring t :: rest) :
    step s = .next (interruptedReset (s.setInbox rest)) := by
  simp only [step, h, perform]

/-- The HOST has seen no response to an interrupted transaction, or some one response. -/
theorem interruptedReset_answers (s : State) :
    (interruptedReset s).answers = s.answers ∨ ∃ a, (interruptedReset s).answers = s.answers ++ [a] := by
  change s.answers ++ (Config.interruptedAnswer s.interruptions).toList = s.answers ∨
    ∃ a, s.answers ++ (Config.interruptedAnswer s.interruptions).toList = s.answers ++ [a]
  cases Config.interruptedAnswer s.interruptions with
  | none => exact .inl (List.append_nil _)
  | some a => exact .inr ⟨a, rfl⟩

/-- The reset registers are those of the error state, with code 0. -/
theorem statusWord_reset : statusWord Regs.reset = 0x00000000 :=
  BitVec.eq_of_toNat_eq (statusWord_enterError_toNat .none Regs.reset)

theorem digestWord_reset (n : Fin 8) : digestWord Regs.reset n = 0x00000000 :=
  digestWord_enterError .none Regs.reset n

end Sys2Proof.Machine

namespace Sys2Proof.ResetAndHazards

open Sys2Proof Sys2Proof.Machine

/-- Settles O14: by induction over the steps, each of which answers a next state and keeps the invariants. -/
theorem everyRunIsAnsweredAndSafe : Obligations.EveryRunIsAnsweredAndSafe := by
  intro n s
  obtain ⟨t, ht, -⟩ := run_keeps (P := fun _ => True) (fun _ _ _ _ => trivial) n (s := s) trivial
  exact ⟨⟨t, ht⟩, run_keeps (P := fun s => s.regs.Inv) RegisterState.everyStepKeepsTheInvariants n⟩

/-- Settles O32: the four fields of the low byte of `STATUS` are those of the number 4, or of 12 with an overflow. -/
theorem successIsStatusFour : Obligations.SuccessIsStatusFour :=
  fun r => ⟨beq_iff_eq.trans (extractLsb'_statusWord_low_eq_iff r false), extractLsb'_statusWord_low_eq_iff r true⟩

/-- Settles O9: the reset registers hold no instance, so that an operation on one raises `MacInstanceReused`. -/
theorem hardwareResetWritesEveryRegister : Obligations.HardwareResetWritesEveryRegister := by
  refine ⟨fun s rest h => step_reset h, fun s hs => ?_⟩
  replace hs : s.regs = Regs.reset := hs
  refine ⟨hs ▸ statusWord_reset, fun n => hs ▸ digestWord_reset n, hs ▸ rfl, hs ▸ rfl, fun i hi => ?_⟩
  have hraises : Raises s.regs i .macInstanceReused := raises_macInstanceReused_iff.mpr ⟨hs ▸ rfl, hi⟩
  exact ⟨_, exec_of_regsAfter (regsAfter_of_raises (hs ▸ rfl) hraises), rfl⟩

/-- Settles O10: in both cases of the free response, none and any one. -/
theorem interruptedTransactionsLeaveTheResetRegisters : Obligations.InterruptedTransactionsLeaveTheResetRegisters :=
  fun s _ rest h => ⟨_, step_resetDuring h, rfl, rfl, interruptedReset_answers (s.setInbox rest)⟩

end Sys2Proof.ResetAndHazards
end
